-- ==== Sys2Proof/Word.lean ====
section
/-! DEFINITION. The words of the machine: bytes, 16-bit words, instruction fields (spec/00_scope.md R7, spec/30_encoding.md R91). -/

namespace Sys2Proof

/-- One addressable unit, and the width of a general register (R61, R21). -/
abbrev Byte := BitVec 8

/-- An instruction word, and the width of `I`, `pc` and a stack entry (R90, R23, R24, R25). -/
abbrev Word := BitVec 16

/-- A 4-bit field of an instruction word (R10). -/
abbrev Nibble := BitVec 4

/-- The index of a general register, 0 to 15 (R21): a 4-bit field. -/
abbrev RegIdx := BitVec 4

/-- The 12-bit address field `nnn` (R91). -/
abbrev Addr12 := BitVec 12

end Sys2Proof
end

