-- ==== Sys2Proof/Machine/Flags.lean ====
section
/-! DEFINITION. Every flag computation of the spec: what the seven flag-writing instructions put in `VF` (spec/10_state.md R22). DRW's collision stands with the drawing. -/

namespace Sys2Proof.Machine

/-- A flag is written as exactly 0x00 or 0x01 (R22 (e)). -/
def flagByte (c : Bool) : Byte := if c then 1 else 0

/-- ADD Vx,Vy: 1 iff the integer sum is above 255 (R166). -/
def carryFlag (a b : Byte) : Byte := flagByte (decide (255 < a.toNat + b.toNat))

/-- SUB and SUBN, `a - b`: 1 iff no borrow, `a >= b` (R167, R169). -/
def notBorrowFlag (a b : Byte) : Byte := flagByte (decide (b.toNat ≤ a.toNat))

/-- SHR: the bit shifted out, bit 0 of the old value (R168). -/
def shrFlag (a : Byte) : Byte := flagByte (a.getLsbD 0)

/-- SHL: the bit shifted out, bit 7 of the old value (R170; C2, D15). -/
def shlFlag (a : Byte) : Byte := flagByte (a.getLsbD 7)

/-- ADD I,Vx: 1 iff the add crosses 0x0FFF from below, else 0 (R191; D10). -/
def crossFlag (old new : Word) : Byte := flagByte (decide (old.toNat ≤ 0x0FFF ∧ 0x0FFF < new.toNat))

end Sys2Proof.Machine
end

