-- ==== Sys2Proof/Syntax.lean ====
section
/-! DEFINITION. The instructions: one constructor per row of spec/opcode_table.json (spec/30_encoding.md R102, R103). -/

namespace Sys2Proof

/-- The 34 instructions, in the order of R103, with the fields R106 passes to the handler.
A field the decoder ignores (R95, R96, R99) is kept, as `z` or as the shifts' `y`, so that an instruction determines its word;
no meaning depends on a `z`. -/
inductive Instr where
  /-- `00E0`, clear screen (R210). -/
  | cls (z : Nibble)
  /-- `00EE`, return from subroutine (R140). -/
  | ret (z : Nibble)
  /-- `1nnn`, jump (R141). -/
  | jp (nnn : Addr12)
  /-- `2nnn`, call subroutine (R142). -/
  | call (nnn : Addr12)
  /-- `3xnn`, skip if `Vx = nn` (R143). -/
  | seImm (x : RegIdx) (nn : Byte)
  /-- `4xnn`, skip if `Vx ≠ nn` (R144). -/
  | sneImm (x : RegIdx) (nn : Byte)
  /-- `5xy0`, skip if `Vx = Vy` (R145). -/
  | seReg (x y : RegIdx) (z : Nibble)
  /-- `6xnn`, load immediate (R160). -/
  | ldImm (x : RegIdx) (nn : Byte)
  /-- `7xnn`, add immediate, no flag (R161). -/
  | addImm (x : RegIdx) (nn : Byte)
  /-- `8xy0`, register move (R162). -/
  | ldReg (x y : RegIdx)
  /-- `8xy1` (R163). -/
  | orReg (x y : RegIdx)
  /-- `8xy2` (R164). -/
  | andReg (x y : RegIdx)
  /-- `8xy3` (R165). -/
  | xorReg (x y : RegIdx)
  /-- `8xy4`, add registers, carry flag (R166). -/
  | addReg (x y : RegIdx)
  /-- `8xy5`, subtract, not-borrow flag (R167). -/
  | sub (x y : RegIdx)
  /-- `8xy6`, shift right by one (R168); `y` is ignored on this hardware. -/
  | shr (x y : RegIdx)
  /-- `8xy7`, reverse subtract, not-borrow flag (R169). -/
  | subn (x y : RegIdx)
  /-- `8xyE`, shift left by one (R170); `y` is ignored on this hardware. -/
  | shl (x y : RegIdx)
  /-- `9xy0`, skip if `Vx ≠ Vy` (R146). -/
  | sneReg (x y : RegIdx) (z : Nibble)
  /-- `Annn`, load index (R190). -/
  | ldI (nnn : Addr12)
  /-- `Bnnn`, jump with offset `V0` (R147). -/
  | jpV0 (nnn : Addr12)
  /-- `Cxnn`, random byte AND `nn` (R171). -/
  | rnd (x : RegIdx) (nn : Byte)
  /-- `Dxyn`, draw an `n`-row sprite at `(Vx, Vy)` (R211). -/
  | drw (x y : RegIdx) (n : Nibble)
  /-- `Ex9E`, skip if key `Vx` is down (R230). -/
  | skp (x : RegIdx)
  /-- `ExA1`, skip if key `Vx` is up (R231). -/
  | sknp (x : RegIdx)
  /-- `Fx07`, read delay timer (R232). -/
  | ldVxDt (x : RegIdx)
  /-- `Fx0A`, wait for a key release (R235). -/
  | ldVxK (x : RegIdx)
  /-- `Fx15`, set delay timer (R233). -/
  | ldDtVx (x : RegIdx)
  /-- `Fx18`, set sound timer (R234). -/
  | ldStVx (x : RegIdx)
  /-- `Fx1E`, add to index, crossing flag (R191). -/
  | addI (x : RegIdx)
  /-- `Fx29`, address of the glyph of `Vx` (R192). -/
  | ldF (x : RegIdx)
  /-- `Fx33`, store the decimal digits of `Vx` (R193). -/
  | ldB (x : RegIdx)
  /-- `Fx55`, dump registers at `I` (R194). -/
  | ldMemVx (x : RegIdx)
  /-- `Fx65`, load registers from `I` (R195). -/
  | ldVxMem (x : RegIdx)
  deriving DecidableEq, Repr

end Sys2Proof
end

