-- ==== Sys2Proof/WellFormed.lean ====
section
/-! DEFINITION. Which instructions are in the form an assembler emits: every ignored field is 0 (spec/30_encoding.md R104). -/

namespace Sys2Proof

/-- The instruction's word is canonical (R103, R104): the fields the decoder ignores are 0.
Every field's range is already its type's, so this is all that syntax leaves to check.
A non-canonical instruction still decodes and runs (R95, R96, R99; D3): nothing in the machine depends on this check. -/
def Instr.WellFormed : Instr → Bool
  | .cls z => z == 0
  | .ret z => z == 0
  | .jp _ => true
  | .call _ => true
  | .seImm _ _ => true
  | .sneImm _ _ => true
  | .seReg _ _ z => z == 0
  | .ldImm _ _ => true
  | .addImm _ _ => true
  | .ldReg _ _ => true
  | .orReg _ _ => true
  | .andReg _ _ => true
  | .xorReg _ _ => true
  | .addReg _ _ => true
  | .sub _ _ => true
  | .shr _ y => y == 0
  | .subn _ _ => true
  | .shl _ y => y == 0
  | .sneReg _ _ z => z == 0
  | .ldI _ => true
  | .jpV0 _ => true
  | .rnd _ _ => true
  | .drw _ _ _ => true
  | .skp _ => true
  | .sknp _ => true
  | .ldVxDt _ => true
  | .ldVxK _ => true
  | .ldDtVx _ => true
  | .ldStVx _ => true
  | .addI _ => true
  | .ldF _ => true
  | .ldB _ => true
  | .ldMemVx _ => true
  | .ldVxMem _ => true

end Sys2Proof
end

