-- ==== Sys2Proof/Decode.lean ====
section
/-! DEFINITION. The instruction decoder and the encoder (spec/30_encoding.md): both pure functions of the word, and the opcode table as mask and match. -/

namespace Sys2Proof

/-! ### Fields (R91) -/

/-- The group selector, `w[15:12]`. -/
def opField (w : Word) : Nibble := w.extractLsb' 12 4

/-- The field `x`, `w[11:8]`. -/
def xField (w : Word) : RegIdx := w.extractLsb' 8 4

/-- The field `y`, `w[7:4]`. -/
def yField (w : Word) : RegIdx := w.extractLsb' 4 4

/-- The field `n`, `w[3:0]`. -/
def nField (w : Word) : Nibble := w.extractLsb' 0 4

/-- The field `nn`, `w[7:0]`. -/
def nnField (w : Word) : Byte := w.extractLsb' 0 8

/-- The field `nnn`, `w[11:0]`. -/
def nnnField (w : Word) : Addr12 := w.extractLsb' 0 12

/-- The word of two bytes, the byte at the lower address high (R68). -/
def wordOfBytes (hi lo : Byte) : Word := hi ++ lo

/-! ### Decoding (R94 to R101, R106) -/

/-- Why a word spells no instruction: the group whose discriminator selects nothing (R100 (a) to (d)).
Decoding answers with one of these; the cycle step then reports the word and goes on (R125). -/
inductive UnknownOpcode where
  /-- `0x0xnn` with `nn` neither 0xE0 nor 0xEE (R95). -/
  | group0
  /-- `0x8xyn` with `n` in 0x8 to 0xD or 0xF (R96). -/
  | group8
  /-- `0xExnn` with `nn` neither 0x9E nor 0xA1 (R97). -/
  | groupE
  /-- `0xFxnn` with `nn` none of the nine of R98. -/
  | groupF
  deriving DecidableEq, Repr

/-- Group 0, selected by `nn` (R95). -/
def decodeGroup0 (z : Nibble) (nn : Byte) : Except UnknownOpcode Instr :=
  if nn = 0xE0#8 then .ok (.cls z)
  else if nn = 0xEE#8 then .ok (.ret z)
  else .error .group0

/-- Group 8, selected by `n` (R96). -/
def decodeGroup8 (x y : RegIdx) (n : Nibble) : Except UnknownOpcode Instr :=
  if n = 0x0#4 then .ok (.ldReg x y)
  else if n = 0x1#4 then .ok (.orReg x y)
  else if n = 0x2#4 then .ok (.andReg x y)
  else if n = 0x3#4 then .ok (.xorReg x y)
  else if n = 0x4#4 then .ok (.addReg x y)
  else if n = 0x5#4 then .ok (.sub x y)
  else if n = 0x6#4 then .ok (.shr x y)
  else if n = 0x7#4 then .ok (.subn x y)
  else if n = 0xE#4 then .ok (.shl x y)
  else .error .group8

/-- Group E, selected by `nn` (R97). -/
def decodeGroupE (x : RegIdx) (nn : Byte) : Except UnknownOpcode Instr :=
  if nn = 0x9E#8 then .ok (.skp x)
  else if nn = 0xA1#8 then .ok (.sknp x)
  else .error .groupE

/-- Group F, selected by `nn` (R98). -/
def decodeGroupF (x : RegIdx) (nn : Byte) : Except UnknownOpcode Instr :=
  if nn = 0x07#8 then .ok (.ldVxDt x)
  else if nn = 0x0A#8 then .ok (.ldVxK x)
  else if nn = 0x15#8 then .ok (.ldDtVx x)
  else if nn = 0x18#8 then .ok (.ldStVx x)
  else if nn = 0x1E#8 then .ok (.addI x)
  else if nn = 0x29#8 then .ok (.ldF x)
  else if nn = 0x33#8 then .ok (.ldB x)
  else if nn = 0x55#8 then .ok (.ldMemVx x)
  else if nn = 0x65#8 then .ok (.ldVxMem x)
  else .error .groupF

/-- The decoder (R106): total, and it reads nothing but the word (R101). The last arm is group F: a 4-bit selector is at most 15. -/
def decode (w : Word) : Except UnknownOpcode Instr :=
  match (opField w).toNat with
  | 0x0 => decodeGroup0 (xField w) (nnField w)
  | 0x1 => .ok (.jp (nnnField w))
  | 0x2 => .ok (.call (nnnField w))
  | 0x3 => .ok (.seImm (xField w) (nnField w))
  | 0x4 => .ok (.sneImm (xField w) (nnField w))
  | 0x5 => .ok (.seReg (xField w) (yField w) (nField w))
  | 0x6 => .ok (.ldImm (xField w) (nnField w))
  | 0x7 => .ok (.addImm (xField w) (nnField w))
  | 0x8 => decodeGroup8 (xField w) (yField w) (nField w)
  | 0x9 => .ok (.sneReg (xField w) (yField w) (nField w))
  | 0xA => .ok (.ldI (nnnField w))
  | 0xB => .ok (.jpV0 (nnnField w))
  | 0xC => .ok (.rnd (xField w) (nnField w))
  | 0xD => .ok (.drw (xField w) (yField w) (nField w))
  | 0xE => decodeGroupE (xField w) (nnField w)
  | _ => decodeGroupF (xField w) (nnField w)

/-! ### Encoding (R92, R103) -/

/-- A word of format NNN (R92). -/
def encodeNNN (op : Nibble) (nnn : Addr12) : Word := op ++ nnn

/-- A word of format XNN, XKK or ZKK (R92): `nn` is an immediate or a discriminator. -/
def encodeXNN (op : Nibble) (x : Nibble) (nn : Byte) : Word := op ++ (x ++ nn)

/-- A word of format XYN (R92). -/
def encodeXYN (op : Nibble) (x y n : Nibble) : Word := op ++ (x ++ (y ++ n))

/-- The word that spells an instruction (R103), its ignored fields as the constructor holds them. -/
def encode : Instr → Word
  | .cls z => encodeXNN 0x0 z 0xE0
  | .ret z => encodeXNN 0x0 z 0xEE
  | .jp nnn => encodeNNN 0x1 nnn
  | .call nnn => encodeNNN 0x2 nnn
  | .seImm x nn => encodeXNN 0x3 x nn
  | .sneImm x nn => encodeXNN 0x4 x nn
  | .seReg x y z => encodeXYN 0x5 x y z
  | .ldImm x nn => encodeXNN 0x6 x nn
  | .addImm x nn => encodeXNN 0x7 x nn
  | .ldReg x y => encodeXYN 0x8 x y 0x0
  | .orReg x y => encodeXYN 0x8 x y 0x1
  | .andReg x y => encodeXYN 0x8 x y 0x2
  | .xorReg x y => encodeXYN 0x8 x y 0x3
  | .addReg x y => encodeXYN 0x8 x y 0x4
  | .sub x y => encodeXYN 0x8 x y 0x5
  | .shr x y => encodeXYN 0x8 x y 0x6
  | .subn x y => encodeXYN 0x8 x y 0x7
  | .shl x y => encodeXYN 0x8 x y 0xE
  | .sneReg x y z => encodeXYN 0x9 x y z
  | .ldI nnn => encodeNNN 0xA nnn
  | .jpV0 nnn => encodeNNN 0xB nnn
  | .rnd x nn => encodeXNN 0xC x nn
  | .drw x y n => encodeXYN 0xD x y n
  | .skp x => encodeXNN 0xE x 0x9E
  | .sknp x => encodeXNN 0xE x 0xA1
  | .ldVxDt x => encodeXNN 0xF x 0x07
  | .ldVxK x => encodeXNN 0xF x 0x0A
  | .ldDtVx x => encodeXNN 0xF x 0x15
  | .ldStVx x => encodeXNN 0xF x 0x18
  | .addI x => encodeXNN 0xF x 0x1E
  | .ldF x => encodeXNN 0xF x 0x29
  | .ldB x => encodeXNN 0xF x 0x33
  | .ldMemVx x => encodeXNN 0xF x 0x55
  | .ldVxMem x => encodeXNN 0xF x 0x65

/-! ### The opcode table -/

/-- One row of spec/opcode_table.json: a word `w` spells the row's instruction exactly when `w AND mask = pattern`
(spec/30_encoding.md, conventions). -/
structure OpcodeRow where
  mask : Word
  pattern : Word
  deriving DecidableEq, Repr

/-- The row an instruction belongs to: the table's "mask" and "match". -/
def Instr.row : Instr → OpcodeRow
  | .cls _ => ⟨0xF0FF, 0x00E0⟩
  | .ret _ => ⟨0xF0FF, 0x00EE⟩
  | .jp _ => ⟨0xF000, 0x1000⟩
  | .call _ => ⟨0xF000, 0x2000⟩
  | .seImm _ _ => ⟨0xF000, 0x3000⟩
  | .sneImm _ _ => ⟨0xF000, 0x4000⟩
  | .seReg _ _ _ => ⟨0xF000, 0x5000⟩
  | .ldImm _ _ => ⟨0xF000, 0x6000⟩
  | .addImm _ _ => ⟨0xF000, 0x7000⟩
  | .ldReg _ _ => ⟨0xF00F, 0x8000⟩
  | .orReg _ _ => ⟨0xF00F, 0x8001⟩
  | .andReg _ _ => ⟨0xF00F, 0x8002⟩
  | .xorReg _ _ => ⟨0xF00F, 0x8003⟩
  | .addReg _ _ => ⟨0xF00F, 0x8004⟩
  | .sub _ _ => ⟨0xF00F, 0x8005⟩
  | .shr _ _ => ⟨0xF00F, 0x8006⟩
  | .subn _ _ => ⟨0xF00F, 0x8007⟩
  | .shl _ _ => ⟨0xF00F, 0x800E⟩
  | .sneReg _ _ _ => ⟨0xF000, 0x9000⟩
  | .ldI _ => ⟨0xF000, 0xA000⟩
  | .jpV0 _ => ⟨0xF000, 0xB000⟩
  | .rnd _ _ => ⟨0xF000, 0xC000⟩
  | .drw _ _ _ => ⟨0xF000, 0xD000⟩
  | .skp _ => ⟨0xF0FF, 0xE09E⟩
  | .sknp _ => ⟨0xF0FF, 0xE0A1⟩
  | .ldVxDt _ => ⟨0xF0FF, 0xF007⟩
  | .ldVxK _ => ⟨0xF0FF, 0xF00A⟩
  | .ldDtVx _ => ⟨0xF0FF, 0xF015⟩
  | .ldStVx _ => ⟨0xF0FF, 0xF018⟩
  | .addI _ => ⟨0xF0FF, 0xF01E⟩
  | .ldF _ => ⟨0xF0FF, 0xF029⟩
  | .ldB _ => ⟨0xF0FF, 0xF033⟩
  | .ldMemVx _ => ⟨0xF0FF, 0xF055⟩
  | .ldVxMem _ => ⟨0xF0FF, 0xF065⟩

/-- The 34 rows of the table, in its order, each given by an instruction of the row. -/
def opcodeRows : List OpcodeRow :=
  [Instr.cls 0, .ret 0, .jp 0, .call 0, .seImm 0 0, .sneImm 0 0, .seReg 0 0 0, .ldImm 0 0, .addImm 0 0].map Instr.row ++
  [Instr.ldReg 0 0, .orReg 0 0, .andReg 0 0, .xorReg 0 0, .addReg 0 0, .sub 0 0, .shr 0 0, .subn 0 0, .shl 0 0].map Instr.row ++
  [Instr.sneReg 0 0 0, .ldI 0, .jpV0 0, .rnd 0 0, .drw 0 0 0, .skp 0, .sknp 0].map Instr.row ++
  [Instr.ldVxDt 0, .ldVxK 0, .ldDtVx 0, .ldStVx 0, .addI 0, .ldF 0, .ldB 0, .ldMemVx 0, .ldVxMem 0].map Instr.row

/-- A word spells the row's instruction. -/
def OpcodeRow.matchesWord (r : OpcodeRow) (w : Word) : Bool := w &&& r.mask == r.pattern

/-! ### From a table word -/

/-- The instruction the decoder reads from an instruction of the opcode table whose `nbits` bits are `w`, bit 0 the least
significant of its one word: the bits above `nbits` are 0. `none` where the decoder answers with an unknown opcode. -/
def decodeTableWord (nbits w : Nat) : Option Instr :=
  match decode (wordOfBytes (BitVec.ofNat 8 (w % 2 ^ nbits / 256)) (BitVec.ofNat 8 (w % 2 ^ nbits))) with
  | .ok i => some i
  | .error _ => none

end Sys2Proof
end

