-- ==== Sys2Proof/Config.lean ====
section
/-! DEFINITION. What is fixed for a run: the sizes of spec/00_scope.md R6 and the one free value, the random byte. The parameters R6 calls configurable stand in Machine/Params.lean. -/

namespace Sys2Proof

/-- The random byte that draw number `k` of a run yields (R171, D16): supplied by the environment, any of 0 to 255 at every
draw, and nothing relates two draws.
A FREE VALUE: it has no body, so a proof holds whatever the bytes are (log entry 6). -/
opaque Config.randomByte : Nat → Byte

/-- `MEM_SIZE`, the bytes of address space (R6, R60). -/
def Config.memSize : Nat := 4096

/-- `LOAD_BASE`, where `load_program` puts the first byte of an image (R6, R80). -/
def Config.loadBase : Nat := 0x200

/-- `RESET_PC` (R6, R36). -/
def Config.resetPc : Word := 0x200

/-- `FONT_LEN`, the bytes of the font table at address 0 (R6, R81). -/
def Config.fontLen : Nat := 80

/-- `GLYPH_ROWS`, the bytes of one glyph (R6, R81). -/
def Config.glyphRows : Nat := 5

end Sys2Proof
end

