-- ==== Sys2Proof/Machine/Params.lean ====
section
/-! DEFINITION. The parameters spec/00_scope.md R6 calls configurable, each with its value for this hardware (log entry 9). -/

namespace Sys2Proof.Machine

/-- `FONT`: the 80 glyph bytes at 0x000 to 0x04F, glyph `d` at `5 * d`, top row first (R81; D4). -/
def Params.font : List Byte :=
  [0xF0, 0x90, 0x90, 0x90, 0xF0, 0x20, 0x60, 0x20, 0x20, 0x70] ++
  [0xF0, 0x10, 0xF0, 0x80, 0xF0, 0xF0, 0x10, 0xF0, 0x10, 0xF0] ++
  [0x90, 0x90, 0xF0, 0x10, 0x10, 0xF0, 0x80, 0xF0, 0x10, 0xF0] ++
  [0xF0, 0x80, 0xF0, 0x90, 0xF0, 0xF0, 0x10, 0x20, 0x40, 0x40] ++
  [0xF0, 0x90, 0xF0, 0x90, 0xF0, 0xF0, 0x90, 0xF0, 0x10, 0xF0] ++
  [0xF0, 0x90, 0xF0, 0x90, 0x90, 0xE0, 0x90, 0xE0, 0x90, 0xE0] ++
  [0xF0, 0x80, 0x80, 0x80, 0xF0, 0xE0, 0x90, 0x90, 0x90, 0xE0] ++
  [0xF0, 0x80, 0xF0, 0x80, 0xF0, 0xF0, 0x80, 0xF0, 0x80, 0x80]

/-- `STACK_DEPTH`: unbounded on this hardware, `none`; `some n` is a stack of `n` entries (R25, R256; D17). -/
def Params.stackDepth : Option Nat := none

/-- `QUIRK_SHIFT_USES_VY`: false, SHR and SHL shift `Vx` in place (R168, R170; D13). -/
def Params.shiftUsesVy : Bool := false

/-- `QUIRK_JUMP_USES_VX`: false, JP V0 adds `V0` (R147; D13). -/
def Params.jumpUsesVx : Bool := false

/-- `QUIRK_MEM_INCLUSIVE`: false, dump and load move `V0` to `V(x-1)`, and `V0` alone when `x = 0` (R196; D12). -/
def Params.memInclusive : Bool := false

/-- `QUIRK_MEM_INCREMENTS_I`: false, dump and load leave `I` unchanged (R196; D11). -/
def Params.memIncrementsI : Bool := false

end Sys2Proof.Machine
end

