-- ==== Sys2Proof/Machine/State.lean ====
section
/-! DEFINITION. The state of the machine as plain data (spec/10_state.md R20), the reasons a step can stop, and the state after reset (R36). -/

namespace Sys2Proof.Machine

/-- Memory: the (address, byte) pairs whose byte differs from the reset contents, addresses strictly rising.
Ops.lean says what an unlisted address reads as and what the canonical form is. -/
abbrev Memory := List Host.Cell

/-- The 16 general registers `V0` to `VF` (R21). -/
abbrev RegFile := Vector Byte 16

/-- The framebuffer, 32 rows of 64 pixels, row 0 at the top, column 0 at the left (R28). -/
abbrev Framebuffer := Vector (Vector Bool 64) 32

/-- The key inputs, key `k` at index `k`; `true` is held down (R29). -/
abbrev KeyState := Vector Bool 16

/-- The key-release latch (R30): `valid` is "a release is pending", `key` the key released. -/
structure Latch where
  valid : Bool
  key : Nibble
  deriving DecidableEq, Repr

/-- A fatal condition with its info (R251): the address `a` the offending instruction was fetched from, and the second info
value where the row has one. -/
inductive Halt where
  /-- Code 1: RET on an empty stack (R252). -/
  | stackUnderflow (a : Word)
  /-- Code 2: a fetch with `pc + 1 > 4095`; the second info value is `pc`, equal to `a` (R253). -/
  | addrRangeFetch (a : Word)
  /-- Code 3: the last address DRW, LD B, LD [I] or LD Vx,[I] would access is above 4095; the second info value is `I` (R254). -/
  | addrRangeData (a : Word) (i : Word)
  /-- Code 4: SKP or SKNP with `Vx > 15`; the second info value is `Vx` (R255). -/
  | keyIndex (a : Word) (vx : Byte)
  /-- Code 5: CALL on a full stack, only where `STACK_DEPTH` is finite (R256). -/
  | stackOverflow (a : Word)
  deriving DecidableEq, Repr

/-- The events through which the host drives the machine (R35). The host's three reads have no effect and are functions of
the state, in Machine/Events.lean. -/
inductive Event where
  /-- Construction (R290). -/
  | reset
  /-- `load_program(bytes)` (R80). -/
  | loadProgram (bytes : List Byte)
  /-- `set_keys(k)`: all 16 key inputs at once (R29). -/
  | setKeys (keys : KeyState)
  /-- `latch_release(k)` (R30). -/
  | latchRelease (key : Nibble)
  /-- `cycle_step`: one instruction (R120). -/
  | cycleStep
  /-- `timer_step` (R264). -/
  | timerStep
  deriving DecidableEq, Repr

/-- What the machine tells the host beside the state itself. -/
inductive HostNote where
  /-- The report of an unknown opcode: the fetch address and the word (R125, R257; D25). -/
  | unknown (a w : Word)
  /-- `load_program` failed with `LoadError::TooLarge` (R80, R258). -/
  | loadTooLarge
  deriving DecidableEq, Repr

/-- The whole state: the eleven components of R20, then the model's own three. -/
structure State where
  /-- `MEM` (R20, R60). -/
  mem : Memory
  /-- `V[0..15]`; `v[15]` is `VF`, the flag (R21, R22). -/
  v : RegFile
  /-- `I` (R23). -/
  i : Word
  /-- `pc` (R24). -/
  pc : Word
  /-- `STACK`, oldest entry first, the top last (R25). -/
  stack : List Word
  /-- `DT` (R26). -/
  dt : Byte
  /-- `ST` (R27). -/
  st : Byte
  /-- `FB` (R28). -/
  fb : Framebuffer
  /-- `KEYS`, an input (R29). -/
  keys : KeyState
  /-- `LATCH` (R30). -/
  latch : Latch
  /-- `HALT`: `none`, or the fatal condition that stopped the machine (R31). -/
  halt : Option Halt
  /-- The MODEL's own: the host's coming events, in order (R35, R131; log entry 5). A step applies the first; with none left a
  step is a cycle step. -/
  schedule : List Event
  /-- The MODEL's own: how many random bytes RND has consumed (R171; log entry 6). -/
  draws : Nat
  /-- The MODEL's own: what the machine has told the host, oldest first (R32; log entry 7). No rule reads it. -/
  hostLog : List HostNote
  deriving DecidableEq, Repr

/-- Reasons a step stops with a fault: NONE. The spec's only traps are the fatal conditions (R250), and taking one is a next
state whose `halt` is set (R261); every access outside `MEM` is such a condition (R66). Nothing raises a fault, which is safe:
there is no run the model ends that the machine would continue (log entry 2). -/
inductive Fault where
  deriving DecidableEq, Repr

/-- Reasons a step is given no meaning. -/
inductive Refusal where
  /-- An instruction that has no meaning in the model yet, by its mnemonic. Raised by no arm: every instruction has its meaning. Safe. -/
  | notModelled (mnemonic : String)
  /-- A `load_program` event reaches a machine that is not in its reset state: after the first cycle step, or a second load.
  The spec gives it no meaning and assumes the host never does it (R38; D24, U14). Raised by `State.loadEvent`. Safe. -/
  | loadNotAtReset
  deriving DecidableEq, Repr

/-- The machine right after reset (R36, R290): memory at its reset contents, `pc = 0x200`, the framebuffer clear; the
registers, stack, latch and `HALT` zero, empty or none (D6, log entry 3); the key inputs all up (the model's choice, log
entry 4); the model's own fields empty or 0 (log entries 5, 6, 7). -/
def State.reset : State where
  mem := []
  v := Vector.replicate 16 0
  i := 0
  pc := Config.resetPc
  stack := []
  dt := 0
  st := 0
  fb := Vector.replicate 32 (Vector.replicate 64 false)
  keys := Vector.replicate 16 false
  latch := ⟨false, 0⟩
  halt := none
  schedule := []
  draws := 0
  hostLog := []

end Sys2Proof.Machine
end

