-- ==== Sys2Proof/Machine/Ops.lean ====
section
/-! DEFINITION. The named operations every meaning is written with: memory, registers, `pc`, stack, framebuffer, the host log, and taking a fatal condition. -/

namespace Sys2Proof.Machine

/-! ### Memory (spec/20_memory.md) -/

/-- What an address nothing has written reads as: the reset contents, the font below 0x050 and 0x00 above (R36, R62, R82). -/
def Memory.unlisted (a : Nat) : Byte := Params.font.getD a 0

/-- The byte at an address (R73): its listed byte, else its reset contents. -/
def Memory.read (m : Memory) (a : Nat) : Byte :=
  match m with
  | [] => Memory.unlisted a
  | (k, b) :: rest => if a = k then b else Memory.read rest a

/-- Put a byte in front of the pairs of higher addresses, unless it is what the address reads as unlisted. -/
def Memory.consCell (a : Nat) (b : Byte) (rest : Memory) : Memory :=
  if b = Memory.unlisted a then rest else (a, b) :: rest

/-- `MEM[a] <- b` (R65): one byte changes, and the canonical form is kept. -/
def Memory.write (m : Memory) (a : Nat) (b : Byte) : Memory :=
  match m with
  | [] => Memory.consCell a b []
  | (k, c) :: rest =>
    if a < k then Memory.consCell a b ((k, c) :: rest)
    else if a = k then Memory.consCell a b rest
    else (k, c) :: Memory.write rest a b

/-- Every listed address is at least `lo` and below `MEM_SIZE`, addresses strictly rise, and no pair equals the reset contents. -/
def Memory.wfFrom (lo : Nat) (m : Memory) : Bool :=
  match m with
  | [] => true
  | (k, b) :: rest => decide (lo ≤ k ∧ k < Config.memSize ∧ b ≠ Memory.unlisted k) && Memory.wfFrom (k + 1) rest

/-- The canonical form of memory: equal memories are equal lists. -/
def Memory.wf (m : Memory) : Bool := Memory.wfFrom 0 m

/-- The bytes at `base`, `base + 1`, …, one per count, in ascending address order (R69). -/
def Memory.readBytes (m : Memory) (base : Nat) (count : Nat) : List Byte :=
  (List.range count).map fun k => m.read (base + k)

/-- Write bytes at `base`, `base + 1`, … in ascending address order (R69). -/
def Memory.writeBytes (m : Memory) (base : Nat) (bytes : List Byte) : Memory :=
  match bytes with
  | [] => m
  | b :: rest => Memory.writeBytes (m.write base b) (base + 1) rest

/-- The range check of a whole access (R66): the `count` bytes from `base` on all lie below 4096. No bytes are always in range.
The sum is of integers: it does not wrap. -/
def inRange (base count : Nat) : Bool := decide (count = 0 ∨ base + count ≤ Config.memSize)

/-- `MemRead(addr, 1)` (R64); `none` is "raises Fatal". -/
def State.memRead8 (s : State) (addr : Nat) : Option Byte :=
  if inRange addr 1 then some (s.mem.read addr) else none

/-- `MemRead(addr, 2)` (R64), used by the fetch only: the byte at the lower address is the high byte (R68). -/
def State.memRead16 (s : State) (addr : Nat) : Option Word :=
  if inRange addr 2 then some (wordOfBytes (s.mem.read addr) (s.mem.read (addr + 1))) else none

/-- `MemWrite(addr, 1, v)` (R65); `none` is "raises Fatal". -/
def State.memWrite8 (s : State) (addr : Nat) (b : Byte) : Option State :=
  if inRange addr 1 then some { s with mem := s.mem.write addr b } else none

/-- Replace the memory. -/
def State.setMem (s : State) (m : Memory) : State := { s with mem := m }

/-! ### Registers (R21, R22, R23) -/

/-- `V[r]`. No register is hardwired and none aliases another (R21). -/
def RegFile.get (f : RegFile) (r : RegIdx) : Byte := f[r.toNat]'r.isLt

/-- `V[r] <- b`. -/
def RegFile.put (f : RegFile) (r : RegIdx) (b : Byte) : RegFile := Vector.set f r.toNat b r.isLt

/-- The index of `VF`, the flag register (R22). -/
def vfIdx : RegIdx := 15

/-- `V[r]` of a state. -/
def State.getV (s : State) (r : RegIdx) : Byte := RegFile.get s.v r

/-- `V[r] <- b` in a state. -/
def State.setV (s : State) (r : RegIdx) (b : Byte) : State := { s with v := RegFile.put s.v r b }

/-- `V[x] <- result`, then `VF <- flag`: the flag is written last and wins where `x` is 15 (R22 (c), R127). -/
def State.setVFlag (s : State) (x : RegIdx) (result flag : Byte) : State := (s.setV x result).setV vfIdx flag

/-- The values of `V0`, `V1`, …, the first `count` of them (R194). -/
def RegFile.prefixBytes (f : RegFile) (count : Nat) : List Byte :=
  (List.range count).map fun k => RegFile.get f (BitVec.ofNat 4 k)

/-- Load `V[k]`, `V[k+1]`, … from bytes in order (R195). -/
def RegFile.putBytes (f : RegFile) (k : Nat) (bytes : List Byte) : RegFile :=
  match bytes with
  | [] => f
  | b :: rest => RegFile.putBytes (RegFile.put f (BitVec.ofNat 4 k) b) (k + 1) rest

/-- Replace the register file. -/
def State.setRegs (s : State) (f : RegFile) : State := { s with v := f }

/-- `I <- w`; `I` is never checked (R67). -/
def State.setI (s : State) (w : Word) : State := { s with i := w }

/-- `DT <- b`. -/
def State.setDt (s : State) (b : Byte) : State := { s with dt := b }

/-- `ST <- b`. -/
def State.setSt (s : State) (b : Byte) : State := { s with st := b }

/-! ### Program counter and call stack (R24, R25) -/

/-- `pc <- t`. -/
def State.setPc (s : State) (t : Word) : State := { s with pc := t }

/-- The advance after the fetch, and the extra 2 of a taken skip: `pc + 2` modulo 65536 (R122, R143; D18). -/
def State.advancePc (s : State) : State := s.setPc (s.pc + 2)

/-- The rewind of the key wait: `pc - 2` modulo 65536 (R235). -/
def State.rewindPc (s : State) : State := s.setPc (s.pc - 2)

/-- Skip the next instruction where the condition holds (R143). -/
def State.skipIf (s : State) (c : Bool) : State := if c then s.advancePc else s

/-- The address `a` the running instruction was fetched from: while a handler runs, `pc = a + 2` (R122; log entry 1). -/
def State.instrAddr (s : State) : Word := s.pc - 2

/-- Replace the call stack. -/
def State.setStack (s : State) (l : List Word) : State := { s with stack := l }

/-- `push(w)`: append at the top (R25). -/
def State.push (s : State) (w : Word) : State := s.setStack (s.stack ++ [w])

/-- `pop()`: the most recently pushed value and the state without it; `none` on an empty stack (R25). -/
def State.pop (s : State) : Option (Word × State) :=
  match s.stack.getLast? with
  | none => none
  | some w => some (w, s.setStack s.stack.dropLast)

/-- The stack has no room for one more entry: never, where the depth is unbounded (R25, R256). -/
def stackFull (depth : Option Nat) (l : List Word) : Bool :=
  match depth with
  | none => false
  | some n => decide (n ≤ l.length)

/-! ### Framebuffer (R28) -/

/-- `FB[r][c]`, coordinates taken modulo 32 and 64 (R28, R213). -/
def Framebuffer.pixel (fb : Framebuffer) (r c : Nat) : Bool :=
  (fb[r % 32]'(Nat.mod_lt _ (by decide)))[c % 64]'(Nat.mod_lt _ (by decide))

/-- `FB[r][c] <- b`, coordinates taken modulo 32 and 64. -/
def Framebuffer.setPixel (fb : Framebuffer) (r c : Nat) (b : Bool) : Framebuffer :=
  Vector.set fb (r % 32)
    (Vector.set (fb[r % 32]'(Nat.mod_lt _ (by decide))) (c % 64) b (Nat.mod_lt _ (by decide)))
    (Nat.mod_lt _ (by decide))

/-- `FB[r][c] <- FB[r][c] XOR 1` (R211). -/
def Framebuffer.toggle (fb : Framebuffer) (r c : Nat) : Framebuffer := fb.setPixel r c (!fb.pixel r c)

/-- All pixels off (R210). -/
def Framebuffer.clear : Framebuffer := Vector.replicate 32 (Vector.replicate 64 false)

/-- Replace the framebuffer. -/
def State.setFb (s : State) (fb : Framebuffer) : State := { s with fb := fb }

/-! ### Keys and latch (R29, R30) -/

/-- `KEYS[k]` for a key 0 to 15 (R29). -/
def State.keyDown (s : State) (k : Nibble) : Bool := s.keys[k.toNat]'k.isLt

/-- Replace the key inputs: `set_keys` (R35). -/
def State.setKeys (s : State) (k : KeyState) : State := { s with keys := k }

/-- Replace the latch. -/
def State.setLatch (s : State) (l : Latch) : State := { s with latch := l }

/-- `LATCH <- (1, k)`: a pending release is overwritten (R30; D21). -/
def State.latchRelease (s : State) (k : Nibble) : State := s.setLatch ⟨true, k⟩

/-- `LATCH.valid <- 0`: the release is consumed (R235). -/
def State.consumeLatch (s : State) : State := s.setLatch { s.latch with valid := false }

/-! ### Fatal conditions (spec/60_exceptions.md R251, R261) -/

/-- The cause code of R251. -/
def Halt.code : Halt → Nat
  | .stackUnderflow _ => 1
  | .addrRangeFetch _ => 2
  | .addrRangeData _ _ => 3
  | .keyIndex _ _ => 4
  | .stackOverflow _ => 5

/-- The address of the offending instruction (R251). -/
def Halt.addr : Halt → Word
  | .stackUnderflow a => a
  | .addrRangeFetch a => a
  | .addrRangeData a _ => a
  | .keyIndex a _ => a
  | .stackOverflow a => a

/-- The second info value of R251, widened to 16 bits; a fetch fault's is `pc`, which is `a`. -/
def Halt.info : Halt → Option Word
  | .stackUnderflow _ => none
  | .addrRangeFetch a => some a
  | .addrRangeData _ i => some i
  | .keyIndex _ vx => some (vx.zeroExtend 16)
  | .stackOverflow _ => none

/-- TAKING A FATAL CONDITION (R261): `HALT <- (cause, info)` and nothing else; `pc` stays as it is, `a` for a fetch fault and
`a + 2` for any other. There is no handler, no saved state and no return (R262): only reset clears `HALT`. -/
def State.raise (s : State) (h : Halt) : State := { s with halt := some h }

/-- The fatal condition of an access through `I` that leaves the address space (R254): nothing is written. -/
def State.raiseDataRange (s : State) : State := s.raise (.addrRangeData s.instrAddr s.i)

/-! ### Free values and reports -/

/-- The random byte the next draw yields (R171). -/
def State.randomByte (s : State) : Byte := Config.randomByte s.draws

/-- The draw is consumed: the next one is another byte. -/
def State.consumeDraw (s : State) : State := { s with draws := s.draws + 1 }

/-- Tell the host something (R257, R271): no other state changes. -/
def State.note (s : State) (n : HostNote) : State := { s with hostLog := s.hostLog ++ [n] }

/-- Replace the host's coming events. -/
def State.setSchedule (s : State) (l : List Event) : State := { s with schedule := l }

end Sys2Proof.Machine
end

