-- ==== Sys2Proof/Machine/Operands.lean ====
section
/-! DEFINITION. The operand forms: "register", "immediate" and "memory at I plus a running offset" (spec/30_encoding.md R93), and the parameterised operand choices of spec/00_scope.md R6. -/

namespace Sys2Proof.Machine

/-- A 12-bit address as a 16-bit value (R93). -/
def zext12 (nnn : Addr12) : Word := nnn.zeroExtend 16

/-- A byte as a 16-bit value (R93). -/
def zext8 (b : Byte) : Word := b.zeroExtend 16

/-- A nibble as a byte (R235). -/
def zext4 (k : Nibble) : Byte := k.zeroExtend 8

/-- The register operands `Vx`, `Vy`, read when the handler starts (R9, R127). -/
def State.pair (s : State) (x y : RegIdx) : Byte × Byte := (s.getV x, s.getV y)

/-- The integer address `I`, where an access through the index begins: never reduced modulo 4096 or 65536 (R66). -/
def State.indexBase (s : State) : Nat := s.i.toNat

/-- The byte a shift works on: `Vx`, or `Vy` with `QUIRK_SHIFT_USES_VY` (R168, R170). -/
def shiftOperand (usesVy : Bool) (s : State) (x y : RegIdx) : Byte := if usesVy then s.getV y else s.getV x

/-- The offset JP V0 adds: `V0`, or `V[nnn[11:8]]` with `QUIRK_JUMP_USES_VX` (R147). -/
def jumpOffset (usesVx : Bool) (s : State) (nnn : Addr12) : Byte :=
  if usesVx then s.getV (nnn.extractLsb' 8 4) else s.getV 0

/-- How many registers dump and load move (R196): `x`, and 1 for `x = 0`; or `x + 1` with `QUIRK_MEM_INCLUSIVE`. -/
def countRegs (inclusive : Bool) (x : RegIdx) : Nat :=
  if inclusive then x.toNat + 1 else if x.toNat = 0 then 1 else x.toNat

/-- `I` after dump or load (R196): unchanged, or past the bytes moved with `QUIRK_MEM_INCREMENTS_I`. -/
def indexAfter (increments : Bool) (i : Word) (count : Nat) : Word :=
  if increments then i + BitVec.ofNat 16 count else i

/-- The decimal digits of a byte: hundreds, tens, ones (R193). -/
def decimalDigits (b : Byte) : List Byte :=
  [BitVec.ofNat 8 (b.toNat / 100), BitVec.ofNat 8 (b.toNat / 10 % 10), BitVec.ofNat 8 (b.toNat % 10)]

end Sys2Proof.Machine
end

