-- ==== Sys2Proof/Machine/Display.lean ====
section
/-! DEFINITION. The two instructions that write the framebuffer (spec/44_display.md). -/

namespace Sys2Proof.Machine

/-- CLS (R210): every pixel off; `VF` is not written. -/
def execCls (_z : Nibble) (s : State) : Host.Outcome State Fault Refusal := .next (s.setFb Framebuffer.clear)

/-- The columns, 0 to 7, that a row byte sets: bit 7 is column 0, bit 0 is column 7 (R212; D5). -/
def rowColumns (b : Byte) : List Nat := (List.range 8).filter fun col => b.getLsbD (7 - col)

/-- The pixels a sprite toggles, (row, column), in the order of R211: row by row downward, columns left to right, each sum
reduced after the addition (R213). -/
def spritePixels (vx vy : Byte) (rows : List Byte) : List (Nat × Nat) :=
  rows.zipIdx.flatMap fun (b, row) =>
    (rowColumns b).map fun col => ((vy.toNat + row) % 32, (vx.toNat + col) % 64)

/-- Toggle the pixels in order; the Boolean is the collision so far: some toggle turned an already-set pixel off (R211, R214). -/
def togglePixels (ps : List (Nat × Nat)) (fb : Framebuffer) (collision : Bool) : Framebuffer × Bool :=
  match ps with
  | [] => (fb, collision)
  | (r, c) :: rest => togglePixels rest (fb.toggle r c) (collision || fb.pixel r c)

/-- Draw sprite rows at the coordinates given, and write the collision to `VF`, last (R211). -/
def drawRows (vx vy : Byte) (rows : List Byte) (s : State) : State :=
  let drawn := togglePixels (spritePixels vx vy rows) s.fb false
  (s.setFb drawn.1).setV vfIdx (flagByte drawn.2)

/-- DRW Vx, Vy, n (R211): the range of the `n` bytes at `I` is checked before anything; with `n = 0` nothing is read and
nothing can fault (R215). The coordinates are the registers as they were (R213; D14). -/
def execDrw (x y : RegIdx) (n : Nibble) (s : State) : Host.Outcome State Fault Refusal :=
  if inRange s.indexBase n.toNat then
    .next (drawRows (s.getV x) (s.getV y) (s.mem.readBytes s.indexBase n.toNat) s)
  else .next s.raiseDataRange

end Sys2Proof.Machine
end

