-- ==== Sys2Proof/Machine/IndexMemory.lean ====
section
/-! DEFINITION. The six instructions that set `I` or move bytes between registers and `MEM` at `I` (spec/43_index_memory.md). -/

namespace Sys2Proof.Machine

/-- LD I, nnn (R190). -/
def execLdI (nnn : Addr12) (s : State) : Host.Outcome State Fault Refusal := .next (s.setI (zext12 nnn))

/-- ADD I, Vx (R191): modulo 65536, the crossing flag into `VF`. -/
def execAddI (x : RegIdx) (s : State) : Host.Outcome State Fault Refusal :=
  let new := s.i + zext8 (s.getV x)
  .next ((s.setI new).setV vfIdx (crossFlag s.i new))

/-- LD F, Vx (R192): the whole byte times 5. -/
def execLdF (x : RegIdx) (s : State) : Host.Outcome State Fault Refusal := .next (s.setI (zext8 (s.getV x) * 5))

/-- Store bytes at `I` after the range check of them all (R66). -/
def storeAtIndex (bytes : List Byte) (iAfter : Word) (s : State) : Host.Outcome State Fault Refusal :=
  if inRange s.indexBase bytes.length then .next ((s.setMem (s.mem.writeBytes s.indexBase bytes)).setI iAfter)
  else .next s.raiseDataRange

/-- LD B, Vx (R193): hundreds, tens, ones at `I`, `I + 1`, `I + 2`. -/
def execLdB (x : RegIdx) (s : State) : Host.Outcome State Fault Refusal :=
  storeAtIndex (decimalDigits (s.getV x)) s.i s

/-- Dump the first `count` registers at `I` (R194). -/
def dumpRegs (increments : Bool) (count : Nat) (s : State) : Host.Outcome State Fault Refusal :=
  storeAtIndex (RegFile.prefixBytes s.v count) (indexAfter increments s.i count) s

/-- LD [I], Vx (R194). -/
def execLdMemVx (x : RegIdx) (s : State) : Host.Outcome State Fault Refusal :=
  dumpRegs Params.memIncrementsI (countRegs Params.memInclusive x) s

/-- Load the first `count` registers from `I` after the range check of all the bytes (R195, R66). -/
def loadRegs (increments : Bool) (count : Nat) (s : State) : Host.Outcome State Fault Refusal :=
  if inRange s.indexBase count then
    .next ((s.setRegs (RegFile.putBytes s.v 0 (s.mem.readBytes s.indexBase count))).setI (indexAfter increments s.i count))
  else .next s.raiseDataRange

/-- LD Vx, [I] (R195). -/
def execLdVxMem (x : RegIdx) (s : State) : Host.Outcome State Fault Refusal :=
  loadRegs Params.memIncrementsI (countRegs Params.memInclusive x) s

end Sys2Proof.Machine
end

