-- ==== Sys2Proof/Machine/Alu.lean ====
section
/-! DEFINITION. The twelve instructions that compute a value into a general register (spec/42_alu.md). All arithmetic is unsigned, 8-bit, modulo 256 (R172). -/

namespace Sys2Proof.Machine

/-- A result into `Vx`, no flag: what the six unflagged instructions and LD Vx,DT share. -/
def writeResult (x : RegIdx) (result : Byte) (s : State) : Host.Outcome State Fault Refusal := .next (s.setV x result)

/-- A result into `Vx` and then a flag into `VF` (R22). -/
def writeFlagged (x : RegIdx) (result flag : Byte) (s : State) : Host.Outcome State Fault Refusal :=
  .next (s.setVFlag x result flag)

/-- LD Vx, nn (R160). -/
def execLdImm (x : RegIdx) (nn : Byte) (s : State) : Host.Outcome State Fault Refusal := writeResult x nn s

/-- ADD Vx, nn (R161): wraps, and writes no flag. -/
def execAddImm (x : RegIdx) (nn : Byte) (s : State) : Host.Outcome State Fault Refusal := writeResult x (s.getV x + nn) s

/-- LD Vx, Vy (R162). -/
def execLdReg (x y : RegIdx) (s : State) : Host.Outcome State Fault Refusal := writeResult x (s.getV y) s

/-- OR Vx, Vy (R163). -/
def execOrReg (x y : RegIdx) (s : State) : Host.Outcome State Fault Refusal := writeResult x (s.getV x ||| s.getV y) s

/-- AND Vx, Vy (R164). -/
def execAndReg (x y : RegIdx) (s : State) : Host.Outcome State Fault Refusal := writeResult x (s.getV x &&& s.getV y) s

/-- XOR Vx, Vy (R165). -/
def execXorReg (x y : RegIdx) (s : State) : Host.Outcome State Fault Refusal := writeResult x (s.getV x ^^^ s.getV y) s

/-- ADD Vx, Vy (R166): carry into `VF`. -/
def execAddReg (x y : RegIdx) (s : State) : Host.Outcome State Fault Refusal :=
  writeFlagged x (s.getV x + s.getV y) (carryFlag (s.getV x) (s.getV y)) s

/-- SUB Vx, Vy (R167): not-borrow into `VF`. -/
def execSub (x y : RegIdx) (s : State) : Host.Outcome State Fault Refusal :=
  writeFlagged x (s.getV x - s.getV y) (notBorrowFlag (s.getV x) (s.getV y)) s

/-- A right shift by one of the given byte (R168): logical, the bit shifted out into `VF`. -/
def shiftRight (x : RegIdx) (a : Byte) (s : State) : Host.Outcome State Fault Refusal :=
  writeFlagged x (a >>> 1) (shrFlag a) s

/-- SHR Vx (R168): in place; `y` is ignored on this hardware. -/
def execShr (x y : RegIdx) (s : State) : Host.Outcome State Fault Refusal :=
  shiftRight x (shiftOperand Params.shiftUsesVy s x y) s

/-- SUBN Vx, Vy (R169): `Vy - Vx`, not-borrow into `VF`. -/
def execSubn (x y : RegIdx) (s : State) : Host.Outcome State Fault Refusal :=
  writeFlagged x (s.getV y - s.getV x) (notBorrowFlag (s.getV y) (s.getV x)) s

/-- A left shift by one of the given byte (R170): the bit shifted out into `VF`. -/
def shiftLeft (x : RegIdx) (a : Byte) (s : State) : Host.Outcome State Fault Refusal :=
  writeFlagged x (a <<< 1) (shlFlag a) s

/-- SHL Vx (R170): in place; `y` is ignored on this hardware. -/
def execShl (x y : RegIdx) (s : State) : Host.Outcome State Fault Refusal :=
  shiftLeft x (shiftOperand Params.shiftUsesVy s x y) s

/-- RND with the random byte given (R171). -/
def randomInto (x : RegIdx) (nn rnd : Byte) (s : State) : Host.Outcome State Fault Refusal :=
  writeResult x (rnd &&& nn) s

/-- RND Vx, nn (R171): the byte of this draw, a free value, which the instruction consumes. -/
def execRnd (x : RegIdx) (nn : Byte) (s : State) : Host.Outcome State Fault Refusal :=
  randomInto x nn s.randomByte s.consumeDraw

end Sys2Proof.Machine
end

