-- ==== Sys2Proof/Machine/ControlFlow.lean ====
section
/-! DEFINITION. The eight control-flow instructions (spec/41_control_flow.md). A handler starts with `pc` already advanced (R122). -/

namespace Sys2Proof.Machine

/-- Skip the next instruction where `c` holds: what the six skips share (R143). -/
def skipWhen (c : Bool) (s : State) : Host.Outcome State Fault Refusal := .next (s.skipIf c)

/-- RET (R140): pop into `pc`; an empty stack is fatal and leaves the stack empty (R252). -/
def execRet (_z : Nibble) (s : State) : Host.Outcome State Fault Refusal :=
  match s.pop with
  | none => .next (s.raise (.stackUnderflow s.instrAddr))
  | some (w, t) => .next (t.setPc w)

/-- JP nnn (R141). -/
def execJp (nnn : Addr12) (s : State) : Host.Outcome State Fault Refusal := .next (s.setPc (zext12 nnn))

/-- CALL nnn with a stack of the given depth (R142, R256). -/
def callWithDepth (depth : Option Nat) (nnn : Addr12) (s : State) : Host.Outcome State Fault Refusal :=
  if stackFull depth s.stack then .next (s.raise (.stackOverflow s.instrAddr))
  else .next ((s.push s.pc).setPc (zext12 nnn))

/-- CALL nnn (R142): push the advanced `pc`, the address after the CALL. -/
def execCall (nnn : Addr12) (s : State) : Host.Outcome State Fault Refusal := callWithDepth Params.stackDepth nnn s

/-- SE Vx, nn (R143). -/
def execSeImm (x : RegIdx) (nn : Byte) (s : State) : Host.Outcome State Fault Refusal := skipWhen (s.getV x == nn) s

/-- SNE Vx, nn (R144). -/
def execSneImm (x : RegIdx) (nn : Byte) (s : State) : Host.Outcome State Fault Refusal := skipWhen (s.getV x != nn) s

/-- SE Vx, Vy (R145); the low nibble is ignored (R99). -/
def execSeReg (x y : RegIdx) (_z : Nibble) (s : State) : Host.Outcome State Fault Refusal :=
  skipWhen (s.getV x == s.getV y) s

/-- SNE Vx, Vy (R146); the low nibble is ignored (R99). -/
def execSneReg (x y : RegIdx) (_z : Nibble) (s : State) : Host.Outcome State Fault Refusal :=
  skipWhen (s.getV x != s.getV y) s

/-- JP V0, nnn (R147): the sum is not reduced modulo 4096. -/
def execJpV0 (nnn : Addr12) (s : State) : Host.Outcome State Fault Refusal :=
  .next (s.setPc (zext12 nnn + zext8 (jumpOffset Params.jumpUsesVx s nnn)))

end Sys2Proof.Machine
end

