-- ==== Sys2Proof/Machine/KeysTimers.lean ====
section
/-! DEFINITION. The key and timer instructions (spec/45_keys_timers.md). -/

namespace Sys2Proof.Machine

/-- What SKP and SKNP share: a register above 15 names no key and is fatal (R236, R255; D9); else skip where the key's state
is the one wanted (R230, R231). -/
def skipOnKey (wanted : Bool) (x : RegIdx) (s : State) : Host.Outcome State Fault Refusal :=
  if 15 < (s.getV x).toNat then .next (s.raise (.keyIndex s.instrAddr (s.getV x)))
  else skipWhen (s.keyDown ((s.getV x).setWidth 4) == wanted) s

/-- SKP Vx (R230). -/
def execSkp (x : RegIdx) (s : State) : Host.Outcome State Fault Refusal := skipOnKey true x s

/-- SKNP Vx (R231). -/
def execSknp (x : RegIdx) (s : State) : Host.Outcome State Fault Refusal := skipOnKey false x s

/-- LD Vx, DT (R232). -/
def execLdVxDt (x : RegIdx) (s : State) : Host.Outcome State Fault Refusal := writeResult x s.dt s

/-- LD Vx, K (R235): with no release latched, back to this instruction; else consume the release into `Vx`. -/
def execLdVxK (x : RegIdx) (s : State) : Host.Outcome State Fault Refusal :=
  if s.latch.valid then .next (s.setV x (zext4 s.latch.key)).consumeLatch else .next s.rewindPc

/-- LD DT, Vx (R233). -/
def execLdDtVx (x : RegIdx) (s : State) : Host.Outcome State Fault Refusal := .next (s.setDt (s.getV x))

/-- LD ST, Vx (R234). -/
def execLdStVx (x : RegIdx) (s : State) : Host.Outcome State Fault Refusal := .next (s.setSt (s.getV x))

end Sys2Proof.Machine
end

