-- ==== Sys2Proof/Machine/Cycle.lean ====
section
/-! DEFINITION. The two events that run the machine: the cycle step (spec/40_cycle_dispatch.md R120) and the timer step (spec/60_exceptions.md R264). -/

namespace Sys2Proof.Machine

/-- The fetch (R121): the big-endian word at `pc`, `pc + 1`; `none` where `pc + 1 > 4095`. -/
def State.fetchWord (s : State) : Option Word := s.memRead16 s.pc.toNat

/-- The machine is halted: a fatal condition has been taken (R31). -/
def State.halted (s : State) : Bool := s.halt.isSome

/-- An unknown opcode `w` fetched from `a` (R125): reported, and otherwise a no-op; `pc` has already advanced. -/
def State.unknownOpcode (s : State) (a w : Word) : State := s.note (.unknown a w)

/-- After the fetch of `w` (R120): advance `pc`, decode, run the handler or report the word. -/
def runWord (w : Word) (s : State) : Host.Outcome State Fault Refusal :=
  match decode w with
  | .ok i => exec i s.advancePc
  | .error _ => .next (s.advancePc.unknownOpcode s.pc w)

/-- `cycle_step` (R120): the halt check (R128), the fetch with its range check (R121, R253), the advance, decode and dispatch. -/
def cycleStep (s : State) : Host.Outcome State Fault Refusal :=
  if s.halted then .next s
  else
    match s.fetchWord with
    | none => .next (s.raise (.addrRangeFetch s.pc))
    | some w => runWord w s

/-- One timer's decrement: toward zero, never below (R264, R265). -/
def countDown (t : Byte) : Byte := if t = 0 then 0 else t - 1

/-- `timer_step` (R264): both timers, each on its own; nothing in a halted machine (D23). -/
def timerStep (s : State) : State := if s.halted then s else (s.setDt (countDown s.dt)).setSt (countDown s.st)

end Sys2Proof.Machine
end

