-- ==== Sys2Proof/Machine/Events.lean ====
section
/-! DEFINITION. The events through which the host and the machine interact (spec/10_state.md R35), and what the host reads. -/

namespace Sys2Proof.Machine

/-- The `reset` event (R290): every component of the machine takes its reset value, in any state, a halted one too. The key
inputs are the host's and stay (R20), as do the model's own fields. -/
def State.resetEvent (s : State) : State :=
  { State.reset with keys := s.keys, schedule := s.schedule, draws := s.draws, hostLog := s.hostLog }

/-- The machine is in its reset state, whatever the host's inputs are: the state `load_program` is offered in (R38; D24). -/
def State.atReset (s : State) : Bool :=
  decide ({ s.resetEvent with latch := s.latch } = s)

/-- The image fits: `0x200 + len <= 4096` (R80). -/
def imageFits (bytes : List Byte) : Bool := decide (Config.loadBase + bytes.length ≤ Config.memSize)

/-- `load_program(bytes)` (R80): verbatim at 0x200, all or nothing; `none` is `LoadError::TooLarge`. -/
def State.loadProgram (s : State) (bytes : List Byte) : Option State :=
  if imageFits bytes then some (s.setMem (s.mem.writeBytes Config.loadBase bytes)) else none

/-- The `load_program` event: on `TooLarge` the host is told and nothing else changes (R80, R258); in any state but the reset
state the spec gives the event no meaning (R38; D24). -/
def State.loadEvent (s : State) (bytes : List Byte) : Host.Outcome State Fault Refusal :=
  if s.atReset then
    match s.loadProgram bytes with
    | some t => .next t
    | none => .next (s.note .loadTooLarge)
  else .refused .loadNotAtReset

/-- One event of R35, atomic. `set_keys` and `latch_release` act in a halted machine too (D23). -/
def applyEvent (e : Event) (s : State) : Host.Outcome State Fault Refusal :=
  match e with
  | .reset => .next s.resetEvent
  | .loadProgram bytes => s.loadEvent bytes
  | .setKeys k => .next (s.setKeys k)
  | .latchRelease k => .next (s.latchRelease k)
  | .cycleStep => cycleStep s
  | .timerStep => .next (timerStep s)

/-- The next thing that happens: the host's next event, or a cycle step where the schedule holds none (log entry 5). -/
def nextEvent (s : State) : Host.Outcome State Fault Refusal :=
  match s.schedule with
  | [] => cycleStep s
  | e :: rest => applyEvent e (s.setSchedule rest)

/-- `read_fb` (R35, R216): no effect. -/
def State.readFb (s : State) : Framebuffer := s.fb

/-- `read_sound` (R35, R266): no effect. -/
def State.readSound (s : State) : Byte := s.st

/-- Sound is on iff `ST != 0` (R266). -/
def State.soundOn (s : State) : Bool := s.st != 0

/-- `read_halt` (R35, R31): no effect. -/
def State.readHalt (s : State) : Option Halt := s.halt

/-- Put an instruction word where the next step fetches, and clear what would keep that step from fetching it: a halted
machine, a `pc` that fetches nothing, an event that comes first (log entry 10). -/
def State.placeWord (s : State) (w : Word) : State :=
  let pc := if inRange s.pc.toNat 2 then s.pc else Config.resetPc
  { s with
    mem := s.mem.writeBytes pc.toNat [w.extractLsb' 8 8, w.extractLsb' 0 8], pc := pc, halt := none, schedule := [] }

end Sys2Proof.Machine
end

