-- ==== Sys2Proof/Machine/Step.lean ====
section
/-! DEFINITION. One step of the machine, and the state whose next step fetches a given instruction. -/

namespace Sys2Proof.Machine

/-- One step: the host's next event, or a cycle step where none is scheduled (spec/10_state.md R35, spec/40_cycle_dispatch.md R120). -/
def step : State → Host.Outcome State Fault Refusal := nextEvent

/-- `s` with the instruction whose `nbits` bits are `w` (bit 0 the least significant of its one word) where `step` fetches next. -/
def State.withFetchWord (s : State) (nbits w : Nat) : State := s.placeWord (BitVec.ofNat 16 (w % 2 ^ nbits))

end Sys2Proof.Machine
end

