-- ==== Sys2Proof/Safety.lean ====
section
/-! DEFINITION. What claims are stated in: fault outcomes, the machine's invariant, parked and launch states, and what a transition keeps. -/

namespace Sys2Proof.Machine

/-! ### Halted states -/

/-- A halted state is a fault outcome: never final and never a success (R128, R261, U8). No claim reads the rest of such a state. -/
def State.FaultOutcome (s : State) : Prop := s.halted = true

/-- A step that answers a next state which is no fault outcome. -/
def SafeStep (s t : State) : Prop := step s = .next t ∧ ¬ t.FaultOutcome

/-- `n` steps, each of them safe, lead from `s` to `t`. -/
def SafeRun (n : Nat) (s t : State) : Prop :=
  match n with
  | 0 => s = t
  | k + 1 => ∃ u, SafeStep s u ∧ SafeRun k u t

/-! ### The invariant (R40) -/

/-- Memory in its canonical form (the model's own clause, log entry 14: R40 (f) leaves memory unconstrained), `pc` at most 0x10FE
(R40 (c)), every stack entry between 2 and 4096 (R40 (d)). The widths of R40 (a) and (e) are in the types. -/
def State.Inv (s : State) : Prop :=
  Memory.wf s.mem = true ∧ s.pc.toNat ≤ 0x10FE ∧ ∀ w ∈ s.stack, 2 ≤ w.toNat ∧ w.toNat ≤ 4096

/-! ### Which instructions write the registers and `pc` -/

/-- The register `r` is one that instruction `i` may write: `Vx`, the flag `VF`, or those LD Vx,[I] fills (R195,
R196; the count is decision D12, log entry 9). Seventeen instructions have any (R21, R22). -/
def WritesReg (r : RegIdx) (i : Instr) : Prop :=
  match i with
  | .cls _ => False
  | .ret _ => False
  | .jp _ => False
  | .call _ => False
  | .seImm _ _ => False
  | .sneImm _ _ => False
  | .seReg _ _ _ => False
  | .ldImm x _ => r = x
  | .addImm x _ => r = x
  | .ldReg x _ => r = x
  | .orReg x _ => r = x
  | .andReg x _ => r = x
  | .xorReg x _ => r = x
  | .addReg x _ => r = x ∨ r = 15
  | .sub x _ => r = x ∨ r = 15
  | .shr x _ => r = x ∨ r = 15
  | .subn x _ => r = x ∨ r = 15
  | .shl x _ => r = x ∨ r = 15
  | .sneReg _ _ _ => False
  | .ldI _ => False
  | .jpV0 _ => False
  | .rnd x _ => r = x
  | .drw _ _ _ => r = 15
  | .skp _ => False
  | .sknp _ => False
  | .ldVxDt x => r = x
  | .ldVxK x => r = x
  | .ldDtVx _ => False
  | .ldStVx _ => False
  | .addI _ => r = 15
  | .ldF _ => False
  | .ldB _ => False
  | .ldMemVx _ => False
  | .ldVxMem x => r.toNat < if x = 0 then 1 else x.toNat

/-- The handler of `i` may write `pc`, which has already advanced past `i` (R148): the jumps, the skips, the key wait. -/
def WritesPc (i : Instr) : Prop :=
  (∃ z, i = .ret z) ∨ (∃ nnn, i = .jp nnn) ∨ (∃ nnn, i = .call nnn) ∨ (∃ nnn, i = .jpV0 nnn) ∨
  (∃ x nn, i = .seImm x nn) ∨ (∃ x nn, i = .sneImm x nn) ∨ (∃ x y z, i = .seReg x y z) ∨ (∃ x y z, i = .sneReg x y z) ∨
  (∃ x, i = .skp x) ∨ (∃ x, i = .sknp x) ∨ ∃ x, i = .ldVxK x

/-- What address `a` reads as once `bytes` stand at `I` and up in `s`: the byte stored there, else what it read as (R65, R69). -/
def State.byteAfterStore (s : State) (bytes : List Byte) (a : Nat) : Byte :=
  if s.i.toNat ≤ a ∧ a < s.i.toNat + bytes.length then bytes.getD (a - s.i.toNat) 0 else Memory.read s.mem a

/-! ### Parked and launch states -/

/-- Parked at `t` (R294): not halted, `pc = t`, and the word at `t` is `JP t`. -/
def State.Parked (s : State) (t : Nat) : Prop :=
  t ≤ 4094 ∧ s.halt = none ∧ s.pc.toNat = t ∧ s.fetchWord = some (BitVec.ofNat 16 (0x1000 + t))

/-- The initial state for a program image (R293); the key inputs, the coming events and the draws consumed are arbitrary. -/
def State.Launch (s : State) (image : List Byte) : Prop :=
  image.length ≤ 3584 ∧
  (∀ a, a < 4096 → Memory.read s.mem a =
    if h : 0x200 ≤ a ∧ a < 0x200 + image.length then image[a - 0x200]'(by omega) else Memory.unlisted a) ∧
  (∀ r, s.getV r = 0) ∧ s.i = 0 ∧ s.pc = 0x200 ∧ s.stack = [] ∧ s.dt = 0 ∧ s.st = 0 ∧
  (∀ r c, Framebuffer.pixel s.fb r c = false) ∧ s.latch.valid = false ∧ s.halt = none

/-! ### What the display and the program counter come to -/

/-- Pixel (r, c) is one that an `n`-row sprite at `I`, drawn with coordinates `vx` and `vy`, toggles: some set bit of some row
byte falls on it (R211 to R213). -/
def SpriteCovers (s : State) (vx vy : Byte) (n : Nat) (r c : Nat) : Prop :=
  ∃ row col, row < n ∧ col < 8 ∧ (Memory.read s.mem (s.i.toNat + row)).getLsbD (7 - col) = true ∧
    r = (vy.toNat + row) % 32 ∧ c = (vx.toNat + col) % 64

/-- `pc` after one cycle step from address `a` that takes no fatal condition (R148), `s` being the state before it. -/
def pcAfter (a : Word) (s : State) (i : Instr) : Word :=
  match i with
  | .cls _ => a + 2
  | .ret _ => s.stack.getLastD 0
  | .jp nnn => nnn.setWidth 16
  | .call nnn => nnn.setWidth 16
  | .seImm x nn => if s.getV x = nn then a + 4 else a + 2
  | .sneImm x nn => if s.getV x = nn then a + 2 else a + 4
  | .seReg x y _ => if s.getV x = s.getV y then a + 4 else a + 2
  | .ldImm _ _ => a + 2
  | .addImm _ _ => a + 2
  | .ldReg _ _ => a + 2
  | .orReg _ _ => a + 2
  | .andReg _ _ => a + 2
  | .xorReg _ _ => a + 2
  | .addReg _ _ => a + 2
  | .sub _ _ => a + 2
  | .shr _ _ => a + 2
  | .subn _ _ => a + 2
  | .shl _ _ => a + 2
  | .sneReg x y _ => if s.getV x = s.getV y then a + 2 else a + 4
  | .ldI _ => a + 2
  | .jpV0 nnn => BitVec.ofNat 16 (nnn.toNat + (s.getV 0).toNat)
  | .rnd _ _ => a + 2
  | .drw _ _ _ => a + 2
  | .skp x => if s.keyDown (BitVec.ofNat 4 (s.getV x).toNat) = true then a + 4 else a + 2
  | .sknp x => if s.keyDown (BitVec.ofNat 4 (s.getV x).toNat) = true then a + 2 else a + 4
  | .ldVxDt _ => a + 2
  | .ldVxK _ => if s.latch.valid = true then a + 2 else a
  | .ldDtVx _ => a + 2
  | .ldStVx _ => a + 2
  | .addI _ => a + 2
  | .ldF _ => a + 2
  | .ldB _ => a + 2
  | .ldMemVx _ => a + 2
  | .ldVxMem _ => a + 2

/-- A cycle step is the next thing to happen, and it fetches `w` (R120, R121): the machine is not halted, `pc` is at most 4094,
and the two bytes at `pc` are `w`, high byte first. -/
def State.Fetches (s : State) (w : Word) : Prop :=
  (s.schedule = [] ∨ s.schedule.head? = some .cycleStep) ∧ s.halt = none ∧ s.pc.toNat ≤ 4094 ∧
    w = wordOfBytes (Memory.read s.mem s.pc.toNat) (Memory.read s.mem (s.pc.toNat + 1))

/-! ### What a transition from `s` to `t` keeps: the frames -/

/-- Every general register but those of `p` holds what it held. -/
def KeepRegsBut (p : RegIdx → Prop) (s t : State) : Prop := ∀ r, ¬ p r → t.getV r = s.getV r

/-- Every general register holds what it held. -/
def KeepRegs (s t : State) : Prop := ∀ r, t.getV r = s.getV r

/-- Every byte of memory reads as before. -/
def KeepMem (s t : State) : Prop := ∀ a, Memory.read t.mem a = Memory.read s.mem a

/-- Every byte of memory outside the `count` bytes from `base` reads as before. -/
def KeepMemOutside (base count : Nat) (s t : State) : Prop :=
  ∀ a, ¬ (base ≤ a ∧ a < base + count) → Memory.read t.mem a = Memory.read s.mem a

/-- Every pixel is as before. -/
def KeepFb (s t : State) : Prop := ∀ r c, Framebuffer.pixel t.fb r c = Framebuffer.pixel s.fb r c

/-- Both timers are as before. -/
def KeepTimers (s t : State) : Prop := t.dt = s.dt ∧ t.st = s.st

/-- The key inputs and the latch are as before. -/
def KeepInputs (s t : State) : Prop := t.keys = s.keys ∧ t.latch = s.latch

/-- The model's own fields are as before: the coming events, the draws consumed, what the host was told. -/
def KeepOwn (s t : State) : Prop := t.schedule = s.schedule ∧ t.draws = s.draws ∧ t.hostLog = s.hostLog

/-- Everything but the general registers, `I`, `pc`, memory and the stack is as before, and no fatal condition was taken. -/
def KeepDevices (s t : State) : Prop :=
  KeepFb s t ∧ KeepTimers s t ∧ KeepInputs s t ∧ KeepOwn s t ∧ t.halt = s.halt

/-- A register transfer's frame: everything but the registers of `p` is as before, `pc` included. -/
def OnlyRegs (p : RegIdx → Prop) (s t : State) : Prop :=
  KeepRegsBut p s t ∧ KeepMem s t ∧ KeepDevices s t ∧ t.i = s.i ∧ t.stack = s.stack ∧ t.pc = s.pc

/-- A control transfer's frame: everything but `pc` and the stack is as before. -/
def OnlyControl (s t : State) : Prop := KeepRegs s t ∧ KeepMem s t ∧ KeepDevices s t ∧ t.i = s.i

/-- What taking a fatal condition does (R261): `HALT` holds it and everything else is as it was. -/
def OnlyHalts (h : Halt) (s t : State) : Prop := t.halt = some h ∧ t = { s with halt := t.halt }

end Sys2Proof.Machine
end

