-- ==== Sys2Proof/Certificates/Slice0/Obligations.lean ====
section
/-! DEFINITION. The statements for the provers, each a rule of spec/ or what follows from rules. `exec` runs a handler with `pc` already advanced, so in a statement about `exec` the instruction's own address is `s.pc - 2` (R122; log entry 1). -/

open Sys2Proof Sys2Proof.Machine

/-! ### Encoding and decoding (spec/30_encoding.md) -/

/-- Decoding an instruction's word gives the instruction back, every operand and every ignored field at every value.
It holds for canonical and non-canonical instructions alike. The numbers are the spec's decision D1. -/
def Obligations.DecodeOfEncodeIsTheInstruction : Prop :=
  ∀ i : Instr, decode (encode i) = .ok i

/-- A word that decodes is the word its instruction encodes to: each word has one meaning (R101). That no bit of it is dropped
is the model's choice to keep the fields the decoder ignores in the constructor (log entry 11), which R101 does not give. -/
def Obligations.EncodeOfDecodeIsTheWord : Prop :=
  ∀ (w : Word) (i : Instr), decode w = .ok i → encode i = w

/-- The unknown words are exactly those of R100 (a) to (d), each refused under its group's name. The discriminators are the
spec's decision D2 (from general knowledge, G1 and G2). -/
def Obligations.UnknownWordsAreThoseOfTheFourGroups : Prop :=
  ∀ w : Word,
    (decode w = .error .group0 ↔ opField w = 0x0 ∧ nnField w ≠ 0xE0 ∧ nnField w ≠ 0xEE) ∧
    (decode w = .error .group8 ↔ opField w = 0x8 ∧
      (nField w = 0x8 ∨ nField w = 0x9 ∨ nField w = 0xA ∨ nField w = 0xB ∨ nField w = 0xC ∨ nField w = 0xD ∨ nField w = 0xF)) ∧
    (decode w = .error .groupE ↔ opField w = 0xE ∧ nnField w ≠ 0x9E ∧ nnField w ≠ 0xA1) ∧
    (decode w = .error .groupF ↔ opField w = 0xF ∧ nnField w ≠ 0x07 ∧ nnField w ≠ 0x0A ∧ nnField w ≠ 0x15 ∧
      nnField w ≠ 0x18 ∧ nnField w ≠ 0x1E ∧ nnField w ≠ 0x29 ∧ nnField w ≠ 0x33 ∧ nnField w ≠ 0x55 ∧ nnField w ≠ 0x65)

/-- The decoder is the opcode table: a word decodes to an instruction of a row exactly when it has the row's bits under the
row's mask, and to no instruction exactly when it matches no row (R101, R102; the table's conventions in spec/30_encoding.md). -/
def Obligations.DecoderIsTheOpcodeTable : Prop :=
  opcodeRows.length = 34 ∧
  ∀ w : Word,
    (∀ r, r ∈ opcodeRows → (r.matchesWord w = true ↔ ∃ i, decode w = .ok i ∧ i.row = r)) ∧
    ((∃ u, decode w = .error u) ↔ ∀ r, r ∈ opcodeRows → r.matchesWord w = false)

/-- The seven words of R107, and one word of each family of the table written out from its encoding in R103 (numbers: decision D1). -/
def Obligations.SampleWordsDecode : Prop :=
  decode 0xA00A = .ok (.ldI 0x00A) ∧ decode 0xD005 = .ok (.drw 0 0 5) ∧ decode 0x8AB4 = .ok (.addReg 0xA 0xB) ∧
  decode 0xF31E = .ok (.addI 3) ∧ decode 0x00E1 = .error .group0 ∧
  decode 0x5120 = .ok (.seReg 1 2 0) ∧ decode 0x5127 = .ok (.seReg 1 2 7) ∧
  decode 0x00E0 = .ok (.cls 0) ∧ decode 0x2210 = .ok (.call 0x210) ∧ decode 0xE19E = .ok (.skp 1) ∧
  decode 0x810E = .ok (.shl 1 0) ∧ decode 0xF265 = .ok (.ldVxMem 2) ∧ decode 0x8128 = .error .group8

/-- The six fields of a word are the bits R91 gives them, and `nn = y ++ n`, `nnn = x ++ y ++ n`. -/
def Obligations.FieldsAreTheBitsOfTheWord : Prop :=
  ∀ w : Word,
    (∀ k, k < 4 → (opField w).getLsbD k = w.getLsbD (12 + k) ∧ (xField w).getLsbD k = w.getLsbD (8 + k) ∧
      (yField w).getLsbD k = w.getLsbD (4 + k) ∧ (nField w).getLsbD k = w.getLsbD k) ∧
    (∀ k, k < 8 → (nnField w).getLsbD k = w.getLsbD k) ∧
    (∀ k, k < 12 → (nnnField w).getLsbD k = w.getLsbD k) ∧
    nnField w = yField w ++ nField w ∧ nnnField w = xField w ++ (yField w ++ nField w)

/-! ### The cycle step (spec/40_cycle_dispatch.md) -/

/-- Where the word at `pc` decodes to an instruction, a step is `exec` of it on the state with `pc` advanced by 2 (R120, R122),
and with the cycle step taken off the schedule where the host had scheduled one (the model's own field, log entry 5). -/
def Obligations.StepRunsTheDecodedInstruction : Prop :=
  ∀ (s : State) (w : Word) (i : Instr), s.Fetches w → decode w = .ok i →
    step s = exec i { s with pc := s.pc + 2, schedule := s.schedule.tail }

/-- An unknown word is reported with its address and is otherwise a no-op: `pc` moves past it and nothing else changes (R125).
That the report holds the address and the word is the spec's decision D25. -/
def Obligations.UnknownWordIsAReportedNoOp : Prop :=
  ∀ (s : State) (w : Word) (u : UnknownOpcode), s.Fetches w → decode w = .error u →
    step s = .next { s with pc := s.pc + 2, schedule := s.schedule.tail, hostLog := s.hostLog ++ [.unknown s.pc w] }

/-- A fetch that would read above address 4095 halts the machine with ADDR_RANGE_FETCH; `pc` is not advanced and nothing else
changes (R121, R253). The mechanism is the spec's decisions D7 and D8. -/
def Obligations.FetchBeyondMemoryHalts : Prop :=
  ∀ s : State, (s.schedule = [] ∨ s.schedule.head? = some .cycleStep) → s.halt = none → 4095 < s.pc.toNat + 1 →
    step s = .next { s with halt := some (.addrRangeFetch s.pc), schedule := s.schedule.tail }

/-- A halted machine does nothing: a cycle step and a timer step leave the whole state as it is (R128, R262). The spec's
decision D23. -/
def Obligations.HaltedMachineDoesNothing : Prop :=
  ∀ s : State, s.halt ≠ none →
    cycleStep s = .next s ∧ timerStep s = s ∧ (s.schedule = [] → step s = .next s)

/-- The fetch is big-endian: `MEM[pc]` supplies the high byte of the word and `MEM[pc + 1]` the low byte (R68). -/
def Obligations.FetchIsBigEndian : Prop :=
  ∀ s : State, s.pc.toNat ≤ 4094 → ∃ w, s.fetchWord = some w ∧
    w.extractLsb' 8 8 = Memory.read s.mem s.pc.toNat ∧ w.extractLsb' 0 8 = Memory.read s.mem (s.pc.toNat + 1)

/-- `pc` after an instruction that takes no fatal condition is what the table of R148 says, `a` being its address. -/
def Obligations.PcAfterEachInstruction : Prop :=
  ∀ (i : Instr) (s t : State) (a : Word), exec i { s with pc := a + 2 } = .next t → t.halt = s.halt → s.halt = none →
    t.pc = pcAfter a s i

/-- Every handler runs to a next state, from every state, and so does every cycle step. R129 and R306 say so of states that are not
halted; that taking a fatal condition, and a step of a halted machine, are next states too is the model's choice of how to write
D7 and D23 (log entry 2). -/
def Obligations.EveryInstructionAnswersANextState : Prop :=
  (∀ (i : Instr) (s : State), ∃ t, exec i s = .next t) ∧ ∀ s : State, s.schedule = [] → ∃ t, step s = .next t

/-- What a handler may change, component by component of R20 (R130 for a cycle step): a general register only in the 17 instructions of
R21, and then only their destination or flag, where LD Vx,[I] fills `V0` alone for `x = 0` and else `V0` to `V(x-1)` (R195, R196; the
count is decision D12, log entry 9); `pc`, beyond the step's advance, only in the jumps, the skips and the key wait (R148);
KEYS and the host's side never; a timer only in its own load; the stack only in CALL and RET; the latch only in LD Vx,K; memory only in
LD B and LD [I]; pixels only in CLS and DRW; `I` only in LD I, ADD I and LD F; HALT only in the instructions with a fatal cause on this
hardware (R251, R260; for SKP and SKNP decision D9). The count of draws, the model's own, only in RND (log entry 6). -/
def Obligations.EachComponentHasItsOwnWriters : Prop :=
  ∀ (i : Instr) (s t : State), exec i s = .next t →
    (∀ r, t.getV r ≠ s.getV r → WritesReg r i) ∧
    (t.pc ≠ s.pc → WritesPc i) ∧
    t.keys = s.keys ∧ t.schedule = s.schedule ∧ t.hostLog = s.hostLog ∧
    (t.dt ≠ s.dt → ∃ x, i = .ldDtVx x) ∧
    (t.st ≠ s.st → ∃ x, i = .ldStVx x) ∧
    (t.stack ≠ s.stack → (∃ nnn, i = .call nnn) ∨ ∃ z, i = .ret z) ∧
    (t.latch ≠ s.latch → ∃ x, i = .ldVxK x) ∧
    (t.mem ≠ s.mem → (∃ x, i = .ldB x) ∨ ∃ x, i = .ldMemVx x) ∧
    (t.fb ≠ s.fb → (∃ z, i = .cls z) ∨ ∃ x y n, i = .drw x y n) ∧
    (t.i ≠ s.i → (∃ nnn, i = .ldI nnn) ∨ (∃ x, i = .addI x) ∨ ∃ x, i = .ldF x) ∧
    (t.draws ≠ s.draws → ∃ x nn, i = .rnd x nn) ∧
    (t.halt ≠ s.halt → (∃ z, i = .ret z) ∨ (∃ x, i = .skp x) ∨ (∃ x, i = .sknp x) ∨ (∃ x y n, i = .drw x y n) ∨
      (∃ x, i = .ldB x) ∨ (∃ x, i = .ldMemVx x) ∨ ∃ x, i = .ldVxMem x)

/-- No instruction reads the sound timer (R27): with another value in it, the instruction ends in a state that differs at most
there. -/
def Obligations.SoundTimerIsNeverRead : Prop :=
  ∀ (i : Instr) (s : State) (b : Byte), ∃ t u, exec i s = .next t ∧ exec i { s with st := b } = .next u ∧
    u = { t with st := u.st }

/-- Each of the seven flag-writing instructions leaves exactly 0 or 1 in `VF`, even where `VF` is an operand or the destination
(R22 (c), (e)); DRW where it takes no fatal condition. -/
def Obligations.FlagIsZeroOrOne : Prop :=
  ∀ (i : Instr) (s t : State) (x y : RegIdx) (n : Nibble),
    (i = .addReg x y ∨ i = .sub x y ∨ i = .subn x y ∨ i = .shr x y ∨ i = .shl x y ∨ i = .addI x ∨ i = .drw x y n) →
    s.halt = none → exec i s = .next t → t.halt = none → t.getV 15 = 0 ∨ t.getV 15 = 1

/-! ### The invariant (spec/10_state.md R40) -/

/-- The reset state meets the invariant, whatever the host has scheduled: R40 (c) and (d), and the canonical form of memory, which is
the model's choice of how to hold it (log entry 14). -/
def Obligations.ResetMeetsTheInvariant : Prop :=
  ∀ l : List Event, { State.reset with schedule := l }.Inv

/-- Every step keeps the invariant: `pc` at most 0x10FE (R40 (c)), every stack entry between 2 and 4096 (R40 (d)), and memory in
canonical form, a clause of the model's own choice (log entry 14; R40 (f) leaves memory unconstrained).
The steps are those of the instructions and of every event the host may schedule. -/
def Obligations.EveryStepKeepsTheInvariant : Prop :=
  ∀ s t : State, s.Inv → step s = .next t → t.Inv

/-! ### Memory primitives (spec/20_memory.md) -/

/-- `MemWrite` (R65): above 4095 it fails; otherwise the byte at the address is the one written and no other byte, and nothing
else, changes. Memory is in canonical form, as every step keeps it. -/
def Obligations.WriteChangesOneByte : Prop :=
  ∀ (s : State) (a : Nat) (b : Byte), Memory.wf s.mem = true →
    (4095 < a → s.memWrite8 a b = none) ∧
    (a ≤ 4095 → ∃ t, s.memWrite8 a b = some t ∧ Memory.read t.mem a = b ∧
      (∀ a', a' ≠ a → Memory.read t.mem a' = Memory.read s.mem a') ∧ t = { s with mem := t.mem })

/-- `MemRead` of one and of two bytes (R64): out of range it fails, and a two-byte value has the byte at the lower address in its
high 8 bits. -/
def Obligations.ReadsAreCheckedAndBigEndian : Prop :=
  ∀ (s : State) (a : Nat),
    (4095 < a → s.memRead8 a = none) ∧ (a ≤ 4095 → s.memRead8 a = some (Memory.read s.mem a)) ∧
    (4095 < a + 1 → s.memRead16 a = none) ∧
    (a + 1 ≤ 4095 → ∃ w, s.memRead16 a = some w ∧
      w.toNat = (Memory.read s.mem a).toNat * 256 + (Memory.read s.mem (a + 1)).toNat)

/-- A store is seen by every later fetch with no other store in between (R76): in any state with the memory that LD [I],Vx or LD B left,
a fetch from any address it can be made from reads the bytes stored where they stand, one or both of its two, and the old bytes
elsewhere. How many registers LD [I] stores is decision D12. Memory is in canonical form (log entry 14), as every step keeps it. -/
def Obligations.StoreIsSeenByTheNextFetch : Prop :=
  ∀ (s t u : State) (x : RegIdx) (c : Nat) (bytes : List Byte), Memory.wf s.mem = true → u.mem = t.mem → u.pc.toNat ≤ 4094 →
    (c = (if x = 0 then 1 else x.toNat) → bytes = ((List.range c).map fun k => s.getV (BitVec.ofNat 4 k)) →
      s.i.toNat + c ≤ 4096 → exec (.ldMemVx x) s = .next t →
      u.fetchWord = some (wordOfBytes (s.byteAfterStore bytes u.pc.toNat) (s.byteAfterStore bytes (u.pc.toNat + 1)))) ∧
    (bytes = [BitVec.ofNat 8 ((s.getV x).toNat / 100), BitVec.ofNat 8 ((s.getV x).toNat / 10 % 10),
        BitVec.ofNat 8 ((s.getV x).toNat % 10)] →
      s.i.toNat ≤ 4093 → exec (.ldB x) s = .next t →
      u.fetchWord = some (wordOfBytes (s.byteAfterStore bytes u.pc.toNat) (s.byteAfterStore bytes (u.pc.toNat + 1))))

/-! ### Reset and loading (spec/70_reset_and_hazards.md, spec/20_memory.md) -/

/-- Reset memory is the font of R81 in its first 80 bytes, glyph by glyph, and 0x00 above; `pc` is 0x200 and every pixel is off
(R36). The glyph bytes are the spec's decision D4. -/
def Obligations.ResetMemoryPcAndScreen : Prop :=
  State.reset.pc = 0x200 ∧ (∀ r c, Framebuffer.pixel State.reset.fb r c = false) ∧
  (∀ a, 80 ≤ a → Memory.read State.reset.mem a = 0x00) ∧
  Memory.readBytes State.reset.mem 0x000 5 = [0xF0, 0x90, 0x90, 0x90, 0xF0] ∧
  Memory.readBytes State.reset.mem 0x005 5 = [0x20, 0x60, 0x20, 0x20, 0x70] ∧
  Memory.readBytes State.reset.mem 0x00A 5 = [0xF0, 0x10, 0xF0, 0x80, 0xF0] ∧
  Memory.readBytes State.reset.mem 0x00F 5 = [0xF0, 0x10, 0xF0, 0x10, 0xF0] ∧
  Memory.readBytes State.reset.mem 0x014 5 = [0x90, 0x90, 0xF0, 0x10, 0x10] ∧
  Memory.readBytes State.reset.mem 0x019 5 = [0xF0, 0x80, 0xF0, 0x10, 0xF0] ∧
  Memory.readBytes State.reset.mem 0x01E 5 = [0xF0, 0x80, 0xF0, 0x90, 0xF0] ∧
  Memory.readBytes State.reset.mem 0x023 5 = [0xF0, 0x10, 0x20, 0x40, 0x40] ∧
  Memory.readBytes State.reset.mem 0x028 5 = [0xF0, 0x90, 0xF0, 0x90, 0xF0] ∧
  Memory.readBytes State.reset.mem 0x02D 5 = [0xF0, 0x90, 0xF0, 0x10, 0xF0] ∧
  Memory.readBytes State.reset.mem 0x032 5 = [0xF0, 0x90, 0xF0, 0x90, 0x90] ∧
  Memory.readBytes State.reset.mem 0x037 5 = [0xE0, 0x90, 0xE0, 0x90, 0xE0] ∧
  Memory.readBytes State.reset.mem 0x03C 5 = [0xF0, 0x80, 0x80, 0x80, 0xF0] ∧
  Memory.readBytes State.reset.mem 0x041 5 = [0xE0, 0x90, 0x90, 0x90, 0xE0] ∧
  Memory.readBytes State.reset.mem 0x046 5 = [0xF0, 0x80, 0xF0, 0x80, 0xF0] ∧
  Memory.readBytes State.reset.mem 0x04B 5 = [0xF0, 0x80, 0xF0, 0x80, 0x80]

/-- The `reset` event, in any state, a halted one too, gives the machine its reset values (R290) and keeps what is the host's:
the key inputs (R20), the later events, the count of draws, what the host was told (the model's own fields, log entries 5 to 7).
The zeros of the registers, stack, timers, latch and HALT are the spec's decision D6 (log entry 3). -/
def Obligations.ResetEventRestoresEverythingButTheHostsSide : Prop :=
  ∀ (s : State) (rest : List Event), s.schedule = .reset :: rest → ∃ t, step s = .next t ∧
    t.mem = State.reset.mem ∧ t.pc = 0x200 ∧ (∀ r c, Framebuffer.pixel t.fb r c = false) ∧
    (∀ r, t.getV r = 0) ∧ t.i = 0 ∧ t.stack = [] ∧ t.dt = 0 ∧ t.st = 0 ∧
    t.latch.valid = false ∧ t.latch.key = 0 ∧ t.halt = none ∧
    t.keys = s.keys ∧ t.schedule = rest ∧ t.draws = s.draws ∧ t.hostLog = s.hostLog

/-- `load_program` in the reset state (R80): an image that fits goes verbatim to 0x200 and up, all other bytes and everything
else unchanged, HALT still none; an image of more than 3584 bytes changes nothing, and the host is told.
What the reset state is, and how the host is told, are the model's (log entries 7 and 8). -/
def Obligations.LoadProgramIsVerbatimOrNothing : Prop :=
  ∀ (s : State) (bytes : List Byte) (rest : List Event), s.schedule = .loadProgram bytes :: rest → s.atReset = true →
    (3584 < bytes.length → step s = .next { s with schedule := rest, hostLog := s.hostLog ++ [.loadTooLarge] }) ∧
    (bytes.length ≤ 3584 → ∃ t, step s = .next t ∧
      (∀ k, (h : k < bytes.length) → Memory.read t.mem (0x200 + k) = bytes[k]) ∧
      KeepMemOutside 0x200 bytes.length s t ∧ t.halt = none ∧ t = { s with mem := t.mem, schedule := rest })

/-- A `load_program` event when any component but the host's own inputs, KEYS and LATCH, differs from its reset value has no meaning
in the spec (R38; D24), and the model refuses it by name (log entry 8). -/
def Obligations.LateLoadIsRefused : Prop :=
  ∀ (s : State) (bytes : List Byte) (rest : List Event), s.schedule = .loadProgram bytes :: rest →
    (s.pc ≠ 0x200 ∨ s.mem ≠ [] ∨ s.stack ≠ [] ∨ s.i ≠ 0 ∨ s.halt ≠ none ∨ (∃ r, s.getV r ≠ 0) ∨ s.dt ≠ 0 ∨ s.st ≠ 0 ∨
      ∃ r c, Framebuffer.pixel s.fb r c = true) →
    step s = .refused .loadNotAtReset

/-! ### Timers and the host's inputs (spec/60_exceptions.md, spec/10_state.md) -/

/-- A timer step of a machine that is not halted takes 1 from each timer that is not 0, and changes nothing else (R264). -/
def Obligations.TimerStepCountsDownToZero : Prop :=
  ∀ (s : State) (rest : List Event), s.schedule = .timerStep :: rest → s.halt = none → ∃ t, step s = .next t ∧
    t.dt.toNat = s.dt.toNat - 1 ∧ t.st.toNat = s.st.toNat - 1 ∧
    t = { s with dt := t.dt, st := t.st, schedule := rest }

/-- A timer written with `v` reads `max(0, v - k)` after `k` timer steps with nothing in between (R265; derived in the spec). -/
def Obligations.TimersSaturateAtZero : Prop :=
  ∀ (k : Nat) (s : State), s.halt = none →
    (timerStep^[k] s).dt.toNat = s.dt.toNat - k ∧ (timerStep^[k] s).st.toNat = s.st.toNat - k ∧
    timerStep^[k] s = { s with dt := (timerStep^[k] s).dt, st := (timerStep^[k] s).st }

/-- `set_keys` replaces all 16 key inputs and `latch_release(k)` makes the latch (1, k), whatever was pending; nothing else
changes, in a halted machine too (R29, R30, R35). The overwriting is the spec's decision D21. -/
def Obligations.HostInputsReachTheirRegisters : Prop :=
  ∀ (s : State) (rest : List Event) (keys : KeyState) (k : Nibble),
    (s.schedule = .setKeys keys :: rest → step s = .next { s with keys := keys, schedule := rest }) ∧
    (s.schedule = .latchRelease k :: rest → step s = .next { s with latch := ⟨true, k⟩, schedule := rest })

/-! ### Control flow (spec/41_control_flow.md) -/

/-- JP and CALL (R141, R142): `pc` becomes `nnn`; CALL pushes the advanced `pc`; nothing else changes. -/
def Obligations.JumpAndCallGoToTheAddress : Prop :=
  ∀ (s : State) (nnn : Addr12),
    (∃ t, exec (.jp nnn) s = .next t ∧ t.pc.toNat = nnn.toNat ∧ t.stack = s.stack ∧ OnlyControl s t) ∧
    (∃ t, exec (.call nnn) s = .next t ∧ t.pc.toNat = nnn.toNat ∧ t.stack = s.stack ++ [s.pc] ∧ OnlyControl s t)

/-- RET on a non-empty stack (R140): `pc` becomes the newest entry, which leaves the stack; nothing else changes. -/
def Obligations.ReturnPopsTheNewestEntry : Prop :=
  ∀ (s : State) (z : Nibble) (l : List Word) (w : Word), s.stack = l ++ [w] →
    ∃ t, exec (.ret z) s = .next t ∧ t.pc = w ∧ t.stack = l ∧ OnlyControl s t

/-- RET on an empty stack halts with STACK_UNDERFLOW and changes nothing else (R140, R252). The mechanism is decisions D7 and D8. -/
def Obligations.ReturnOnEmptyStackHalts : Prop :=
  ∀ (s : State) (z : Nibble), s.stack = [] →
    ∃ t, exec (.ret z) s = .next t ∧ OnlyHalts (.stackUnderflow (s.pc - 2)) s t

/-- A RET that finds the stack as a CALL left it goes to the instruction after the CALL and leaves the stack as the CALL found
it (R140, R142). -/
def Obligations.ReturnUndoesCall : Prop :=
  ∀ (s t u : State) (nnn : Addr12) (z : Nibble), exec (.call nnn) s = .next t → u.stack = t.stack →
    ∃ v, exec (.ret z) u = .next v ∧ v.pc = s.pc ∧ v.stack = s.stack ∧ OnlyControl u v

/-- With a finite STACK_DEPTH (not this hardware), CALL on a full stack halts with STACK_OVERFLOW and pushes nothing; below the
depth it is the CALL of this hardware (R256; decision D17). -/
def Obligations.FiniteStackOverflows : Prop :=
  ∀ (s : State) (nnn : Addr12) (depth : Nat),
    (depth ≤ s.stack.length →
      ∃ t, callWithDepth (some depth) nnn s = .next t ∧ OnlyHalts (.stackOverflow (s.pc - 2)) s t) ∧
    (s.stack.length < depth → callWithDepth (some depth) nnn s = exec (.call nnn) s)

/-- The four register skips (R143 to R146): 2 more on `pc` where the condition holds, else nothing; no other change. The low
nibble of the register forms plays no part (R99, decision D3). -/
def Obligations.SkipsAddTwoWhenTheConditionHolds : Prop :=
  ∀ (s : State) (x y : RegIdx) (nn : Byte) (z : Nibble),
    (∃ t, exec (.seImm x nn) s = .next t ∧ t.pc = (if s.getV x = nn then s.pc + 2 else s.pc) ∧
      t.stack = s.stack ∧ OnlyControl s t) ∧
    (∃ t, exec (.sneImm x nn) s = .next t ∧ t.pc = (if s.getV x = nn then s.pc else s.pc + 2) ∧
      t.stack = s.stack ∧ OnlyControl s t) ∧
    (∃ t, exec (.seReg x y z) s = .next t ∧ t.pc = (if s.getV x = s.getV y then s.pc + 2 else s.pc) ∧
      t.stack = s.stack ∧ OnlyControl s t) ∧
    (∃ t, exec (.sneReg x y z) s = .next t ∧ t.pc = (if s.getV x = s.getV y then s.pc else s.pc + 2) ∧
      t.stack = s.stack ∧ OnlyControl s t)

/-- JP V0 (R147): the integer sum of `nnn` and `V0`, not reduced modulo 4096 and at most 0x10FE, whatever register the address's top nibble names. -/
def Obligations.JumpWithOffsetAddsV0 : Prop :=
  ∀ (s : State) (nnn : Addr12), ∃ t, exec (.jpV0 nnn) s = .next t ∧
    t.pc.toNat = nnn.toNat + (s.getV 0).toNat ∧ t.pc.toNat ≤ 0x10FE ∧ t.stack = s.stack ∧ OnlyControl s t

/-! ### Arithmetic and logic (spec/42_alu.md) -/

/-- LD Vx,nn and LD Vx,Vy (R160, R162): the destination holds the value, and nothing else changes. -/
def Obligations.LoadsPutTheValueInVx : Prop :=
  ∀ (s : State) (x y : RegIdx) (nn : Byte),
    (∃ t, exec (.ldImm x nn) s = .next t ∧ t.getV x = nn ∧ OnlyRegs (fun r => r = x) s t) ∧
    (∃ t, exec (.ldReg x y) s = .next t ∧ t.getV x = s.getV y ∧ OnlyRegs (fun r => r = x) s t)

/-- ADD Vx,nn (R161): the sum modulo 256, and no flag: `VF` changes only as the destination. -/
def Obligations.AddImmediateWrapsWithoutFlag : Prop :=
  ∀ (s : State) (x : RegIdx) (nn : Byte), ∃ t, exec (.addImm x nn) s = .next t ∧
    (t.getV x).toNat = ((s.getV x).toNat + nn.toNat) % 256 ∧ OnlyRegs (fun r => r = x) s t

/-- OR, AND, XOR (R163 to R165): bit by bit, and no flag. -/
def Obligations.LogicIsBitwiseWithoutFlag : Prop :=
  ∀ (s : State) (x y : RegIdx),
    (∃ t, exec (.orReg x y) s = .next t ∧
      (∀ k, k < 8 → (t.getV x).getLsbD k = ((s.getV x).getLsbD k || (s.getV y).getLsbD k)) ∧ OnlyRegs (fun r => r = x) s t) ∧
    (∃ t, exec (.andReg x y) s = .next t ∧
      (∀ k, k < 8 → (t.getV x).getLsbD k = ((s.getV x).getLsbD k && (s.getV y).getLsbD k)) ∧ OnlyRegs (fun r => r = x) s t) ∧
    (∃ t, exec (.xorReg x y) s = .next t ∧
      (∀ k, k < 8 → (t.getV x).getLsbD k = ((s.getV x).getLsbD k != (s.getV y).getLsbD k)) ∧ OnlyRegs (fun r => r = x) s t)

/-- ADD Vx,Vy (R166): the sum modulo 256 in `Vx`, the carry in `VF`, written last: with `x = 15` the flag is what stays (R22). -/
def Obligations.AddRegistersCarries : Prop :=
  ∀ (s : State) (x y : RegIdx), ∃ t, exec (.addReg x y) s = .next t ∧
    t.getV 15 = (if 255 < (s.getV x).toNat + (s.getV y).toNat then 1 else 0) ∧
    (x ≠ 15 → (t.getV x).toNat = ((s.getV x).toNat + (s.getV y).toNat) % 256) ∧
    OnlyRegs (fun r => r = x ∨ r = 15) s t

/-- SUB and SUBN (R167, R169): the difference modulo 256 in `Vx`, 1 in `VF` exactly where no borrow occurs; the flag wins where
`x = 15` (R22). -/
def Obligations.SubtractsFlagNoBorrow : Prop :=
  ∀ (s : State) (x y : RegIdx),
    (∃ t, exec (.sub x y) s = .next t ∧
      t.getV 15 = (if (s.getV y).toNat ≤ (s.getV x).toNat then 1 else 0) ∧
      (x ≠ 15 → ((t.getV x).toNat : Int) = ((s.getV x).toNat - (s.getV y).toNat : Int) % 256) ∧
      OnlyRegs (fun r => r = x ∨ r = 15) s t) ∧
    (∃ t, exec (.subn x y) s = .next t ∧
      t.getV 15 = (if (s.getV x).toNat ≤ (s.getV y).toNat then 1 else 0) ∧
      (x ≠ 15 → ((t.getV x).toNat : Int) = ((s.getV y).toNat - (s.getV x).toNat : Int) % 256) ∧
      OnlyRegs (fun r => r = x ∨ r = 15) s t)

/-- SHR and SHL (R168, R170): `Vx` in place, by one bit, the bit shifted out in `VF`; the field `y` plays no part (D3, D13), and
SHL's flag is bit 7 (conflict C2, D15). -/
def Obligations.ShiftsMoveOneBitIntoTheFlag : Prop :=
  ∀ (s : State) (x y : RegIdx),
    (∃ t, exec (.shr x y) s = .next t ∧ (t.getV 15).toNat = (s.getV x).toNat % 2 ∧
      (x ≠ 15 → (t.getV x).toNat = (s.getV x).toNat / 2) ∧ OnlyRegs (fun r => r = x ∨ r = 15) s t) ∧
    (∃ t, exec (.shl x y) s = .next t ∧ (t.getV 15).toNat = (s.getV x).toNat / 128 ∧
      (x ≠ 15 → (t.getV x).toNat = (s.getV x).toNat * 2 % 256) ∧ OnlyRegs (fun r => r = x ∨ r = 15) s t)

/-- RND (R171): the random byte of this draw AND `nn`, so every bit that `nn` has 0 is 0; the draw is consumed. The byte is a
free value: the statement holds whatever it is (log entry 6). -/
def Obligations.RandomIsMaskedByTheImmediate : Prop :=
  ∀ (s : State) (x : RegIdx) (nn : Byte), ∃ t, exec (.rnd x nn) s = .next t ∧
    t.getV x = Config.randomByte s.draws &&& nn ∧
    (∀ k, nn.getLsbD k = false → (t.getV x).getLsbD k = false) ∧ t.draws = s.draws + 1 ∧
    KeepRegsBut (fun r => r = x) s t ∧ KeepMem s t ∧ KeepFb s t ∧ KeepTimers s t ∧ KeepInputs s t ∧
    t.schedule = s.schedule ∧ t.hostLog = s.hostLog ∧ t.halt = s.halt ∧ t.i = s.i ∧ t.stack = s.stack ∧ t.pc = s.pc

/-! ### Index register and memory (spec/43_index_memory.md) -/

/-- LD I,nnn (R190): the word `Annn` is it, `I` becomes `nnn`, which is always in range for a one-byte access, and nothing else
changes, no flag and no fatal condition. -/
def Obligations.LoadIndexSetsI : Prop :=
  ∀ (s : State) (nnn : Addr12), decode (0xA#4 ++ nnn) = .ok (.ldI nnn) ∧
    ∃ t, exec (.ldI nnn) s = .next t ∧ t.i.toNat = nnn.toNat ∧ inRange t.i.toNat 1 = true ∧
      KeepRegs s t ∧ KeepMem s t ∧ KeepDevices s t ∧ t.stack = s.stack ∧ t.pc = s.pc

/-- ADD I,Vx (R191): the sum modulo 65536 in `I`; `VF` is 1 exactly where the add crosses 0x0FFF from below, and 0 otherwise
(that it is written 0 is the spec's decision D10). -/
def Obligations.AddToIndexFlagsTheCrossing : Prop :=
  ∀ (s : State) (x : RegIdx), ∃ t, exec (.addI x) s = .next t ∧
    t.i.toNat = (s.i.toNat + (s.getV x).toNat) % 65536 ∧
    t.getV 15 = (if s.i.toNat ≤ 0x0FFF ∧ 0x0FFF < t.i.toNat then 1 else 0) ∧
    KeepRegsBut (fun r => r = 15) s t ∧ KeepMem s t ∧ KeepDevices s t ∧ t.stack = s.stack ∧ t.pc = s.pc

/-- LD F,Vx (R192): `I` becomes five times the whole byte, which on a machine with reset memory is where the glyph of a digit
0 to 15 stands (R81); nothing else changes. -/
def Obligations.FontAddressIsFiveTimesVx : Prop :=
  ∀ (s : State) (x : RegIdx), ∃ t, exec (.ldF x) s = .next t ∧ t.i.toNat = (s.getV x).toNat * 5 ∧
    ((s.getV x).toNat ≤ 15 → s.mem = [] →
      Memory.readBytes t.mem t.i.toNat 5 = (Params.font.drop ((s.getV x).toNat * 5)).take 5) ∧
    KeepRegs s t ∧ KeepMem s t ∧ KeepDevices s t ∧ t.stack = s.stack ∧ t.pc = s.pc

/-- LD B,Vx (R193) where its three bytes are in memory: the decimal digits of `Vx`, hundreds first, at `I`, `I + 1`, `I + 2`;
every other byte and everything else unchanged. -/
def Obligations.DecimalDigitsAreStored : Prop :=
  ∀ (s : State) (x : RegIdx), Memory.wf s.mem = true → s.i.toNat ≤ 4093 → ∃ t, exec (.ldB x) s = .next t ∧
    (Memory.read t.mem s.i.toNat).toNat * 100 + (Memory.read t.mem (s.i.toNat + 1)).toNat * 10 +
      (Memory.read t.mem (s.i.toNat + 2)).toNat = (s.getV x).toNat ∧
    (Memory.read t.mem s.i.toNat).toNat ≤ 2 ∧ (Memory.read t.mem (s.i.toNat + 1)).toNat ≤ 9 ∧
    (Memory.read t.mem (s.i.toNat + 2)).toNat ≤ 9 ∧
    KeepMemOutside s.i.toNat 3 s t ∧ KeepRegs s t ∧ KeepDevices s t ∧ t.i = s.i ∧ t.stack = s.stack ∧ t.pc = s.pc

/-- LD [I],Vx (R194, R196): with `c` 1 for `x = 0` and `x` otherwise, registers `V0` to `V(c-1)` go to `I` and up, where they all
fit; every other byte, every register and `I` unchanged. The count and the unchanged `I` are decisions D12 and D11. -/
def Obligations.DumpStoresTheFirstRegisters : Prop :=
  ∀ (s : State) (x : RegIdx) (c : Nat), Memory.wf s.mem = true → c = (if x = 0 then 1 else x.toNat) →
    s.i.toNat + c ≤ 4096 → ∃ t, exec (.ldMemVx x) s = .next t ∧
    (∀ r : RegIdx, r.toNat < c → Memory.read t.mem (s.i.toNat + r.toNat) = s.getV r) ∧
    KeepMemOutside s.i.toNat c s t ∧ KeepRegs s t ∧ KeepDevices s t ∧ t.i = s.i ∧ t.stack = s.stack ∧ t.pc = s.pc

/-- LD Vx,[I] (R195, R196): registers `V0` to `V(c-1)` take the bytes at `I` and up, where they are all in memory; every other
register, memory and `I` unchanged. The count and the unchanged `I` are decisions D12 and D11. -/
def Obligations.LoadFillsTheFirstRegisters : Prop :=
  ∀ (s : State) (x : RegIdx) (c : Nat), c = (if x = 0 then 1 else x.toNat) → s.i.toNat + c ≤ 4096 →
    ∃ t, exec (.ldVxMem x) s = .next t ∧
    (∀ r : RegIdx, r.toNat < c → t.getV r = Memory.read s.mem (s.i.toNat + r.toNat)) ∧
    OnlyRegs (fun r => r.toNat < c) s t

/-- The four instructions that access memory through `I` halt with ADDR_RANGE_DATA where their last byte would lie above 4095,
and then change nothing else (R66, R254; the precision is decision D8). -/
def Obligations.AccessBeyondMemoryHalts : Prop :=
  ∀ (s : State) (x y : RegIdx) (n : Nibble),
    (4095 < s.i.toNat + 2 →
      ∃ t, exec (.ldB x) s = .next t ∧ OnlyHalts (.addrRangeData (s.pc - 2) s.i) s t) ∧
    (4096 < s.i.toNat + (if x = 0 then 1 else x.toNat) →
      (∃ t, exec (.ldMemVx x) s = .next t ∧ OnlyHalts (.addrRangeData (s.pc - 2) s.i) s t) ∧
      ∃ t, exec (.ldVxMem x) s = .next t ∧ OnlyHalts (.addrRangeData (s.pc - 2) s.i) s t) ∧
    (1 ≤ n.toNat → 4096 < s.i.toNat + n.toNat →
      ∃ t, exec (.drw x y n) s = .next t ∧ OnlyHalts (.addrRangeData (s.pc - 2) s.i) s t)

/-- A load of the registers that a dump stored, from the same `I` and memory, gives each of them its value back (R194 to R196). -/
def Obligations.LoadUndoesDump : Prop :=
  ∀ (s t u : State) (x : RegIdx), Memory.wf s.mem = true → s.i.toNat + (if x = 0 then 1 else x.toNat) ≤ 4096 →
    exec (.ldMemVx x) s = .next t → u.mem = t.mem → u.i = t.i →
    ∃ v, exec (.ldVxMem x) u = .next v ∧
      ∀ r : RegIdx, v.getV r = if r.toNat < (if x = 0 then 1 else x.toNat) then s.getV r else u.getV r

/-! ### Display (spec/44_display.md) -/

/-- CLS (R210): every pixel is off and nothing else changes, `VF` included; the field `x` plays no part (R95, decision D3). -/
def Obligations.ClearTurnsEveryPixelOff : Prop :=
  ∀ (s : State) (z : Nibble), ∃ t, exec (.cls z) s = .next t ∧ (∀ r c, Framebuffer.pixel t.fb r c = false) ∧
    KeepRegs s t ∧ KeepMem s t ∧ KeepTimers s t ∧ KeepInputs s t ∧ KeepOwn s t ∧ t.halt = s.halt ∧
    t.i = s.i ∧ t.stack = s.stack ∧ t.pc = s.pc

/-- DRW (R211 to R215) where its rows are in memory, or there are none: a pixel is toggled exactly where a set bit of the sprite
falls on it, coordinates wrapping; `VF` is 1 exactly where a pixel that was on is toggled off, and 0 otherwise; nothing else changes.
The order of bits in a row is decision D5, the reading of the coordinates before `VF` is written decision D14. -/
def Obligations.DrawTogglesTheSpritesPixels : Prop :=
  ∀ (s : State) (x y : RegIdx) (n : Nibble), (n = 0 ∨ s.i.toNat + n.toNat ≤ 4096) →
    ∃ t, exec (.drw x y n) s = .next t ∧
    (∀ r c, r < 32 → c < 64 → (Framebuffer.pixel t.fb r c = true ↔
      ¬ (Framebuffer.pixel s.fb r c = true ↔ SpriteCovers s (s.getV x) (s.getV y) n.toNat r c))) ∧
    (t.getV 15 = 1 ↔ ∃ r c, SpriteCovers s (s.getV x) (s.getV y) n.toNat r c ∧ Framebuffer.pixel s.fb r c = true) ∧
    (t.getV 15 = 0 ∨ t.getV 15 = 1) ∧
    KeepRegsBut (fun r => r = 15) s t ∧ KeepMem s t ∧ KeepTimers s t ∧ KeepInputs s t ∧ KeepOwn s t ∧ t.halt = s.halt ∧
    t.i = s.i ∧ t.stack = s.stack ∧ t.pc = s.pc

/-- The XOR self-inverse law (R214): the same sprite drawn twice, with nothing changed in between but what the draw itself
writes, restores the screen, and `VF` is then the second draw's own collision. Neither coordinate register is `VF`. -/
def Obligations.DrawingTwiceRestoresTheScreen : Prop :=
  ∀ (s t : State) (x y : RegIdx) (n : Nibble), x ≠ 15 → y ≠ 15 → (n = 0 ∨ s.i.toNat + n.toNat ≤ 4096) →
    exec (.drw x y n) s = .next t →
    ∃ u, exec (.drw x y n) t = .next u ∧ u.fb = s.fb ∧
      (u.getV 15 = 1 ↔ ∃ r c, SpriteCovers s (s.getV x) (s.getV y) n.toNat r c ∧ Framebuffer.pixel s.fb r c = false)

/-! ### Keys and timers (spec/45_keys_timers.md) -/

/-- SKP and SKNP with a key number 0 to 15 in `Vx` (R230, R231): exactly one of them adds 2 to `pc`, by the key's state now;
nothing else changes. -/
def Obligations.KeySkipsFollowTheKey : Prop :=
  ∀ (s : State) (x : RegIdx) (k : Nibble), (s.getV x).toNat = k.toNat →
    (∃ t, exec (.skp x) s = .next t ∧ t.pc = (if s.keyDown k = true then s.pc + 2 else s.pc) ∧
      t.stack = s.stack ∧ OnlyControl s t) ∧
    (∃ t, exec (.sknp x) s = .next t ∧ t.pc = (if s.keyDown k = true then s.pc else s.pc + 2) ∧
      t.stack = s.stack ∧ OnlyControl s t)

/-- SKP and SKNP with `Vx` above 15 halt with KEY_INDEX and change nothing else (R236, R255). The spec's decision D9. -/
def Obligations.KeyIndexAboveFifteenHalts : Prop :=
  ∀ (s : State) (x : RegIdx), 15 < (s.getV x).toNat →
    (∃ t, exec (.skp x) s = .next t ∧ OnlyHalts (.keyIndex (s.pc - 2) (s.getV x)) s t) ∧
    (∃ t, exec (.sknp x) s = .next t ∧ OnlyHalts (.keyIndex (s.pc - 2) (s.getV x)) s t)

/-- The three timer moves (R232 to R234): LD Vx,DT reads DT; LD DT,Vx and LD ST,Vx write their timer, any value; nothing else
changes. -/
def Obligations.TimerMoves : Prop :=
  ∀ (s : State) (x : RegIdx),
    (∃ t, exec (.ldVxDt x) s = .next t ∧ t.getV x = s.dt ∧ OnlyRegs (fun r => r = x) s t) ∧
    (∃ t, exec (.ldDtVx x) s = .next t ∧ t.dt = s.getV x ∧ t.st = s.st ∧ KeepRegs s t ∧ KeepMem s t ∧ KeepFb s t ∧
      KeepInputs s t ∧ KeepOwn s t ∧ t.halt = s.halt ∧ t.i = s.i ∧ t.stack = s.stack ∧ t.pc = s.pc) ∧
    (∃ t, exec (.ldStVx x) s = .next t ∧ t.st = s.getV x ∧ t.dt = s.dt ∧ KeepRegs s t ∧ KeepMem s t ∧ KeepFb s t ∧
      KeepInputs s t ∧ KeepOwn s t ∧ t.halt = s.halt ∧ t.i = s.i ∧ t.stack = s.stack ∧ t.pc = s.pc)

/-- LD Vx,K (R235): with a release latched, the key number goes to `Vx`, the latch is empty and `pc` stays past the instruction;
with none, `pc` goes back to the instruction and nothing else changes. -/
def Obligations.KeyWaitConsumesTheRelease : Prop :=
  ∀ (s : State) (x : RegIdx),
    (s.latch.valid = true → ∃ t, exec (.ldVxK x) s = .next t ∧ (t.getV x).toNat = s.latch.key.toNat ∧
      t.latch.valid = false ∧ t.latch.key = s.latch.key ∧ t.keys = s.keys ∧
      KeepRegsBut (fun r => r = x) s t ∧ KeepMem s t ∧ KeepFb s t ∧ KeepTimers s t ∧ KeepOwn s t ∧
      t.halt = s.halt ∧ t.i = s.i ∧ t.stack = s.stack ∧ t.pc = s.pc) ∧
    (s.latch.valid = false → ∃ t, exec (.ldVxK x) s = .next t ∧ t.pc = s.pc - 2 ∧ t.stack = s.stack ∧ OnlyControl s t)

/-- With no release latched, a machine at LD Vx,K stays in the very same state however many cycle steps it makes (R235, the
source's property S8). -/
def Obligations.KeyWaitWaitsForever : Prop :=
  ∀ (s : State) (w : Word) (x : RegIdx) (k : Nat), s.schedule = [] → s.Fetches w → decode w = .ok (.ldVxK x) →
    s.latch.valid = false → Host.Core.run Sys2Proof.core k s = .next s

/-- A parked machine (R294) stays as it is at every cycle step, and a timer step leaves it parked with only the timers changed.
The definition of parked is the spec's decision D29. -/
def Obligations.ParkedMachineStaysParked : Prop :=
  ∀ (s : State) (t : Nat), s.Parked t →
    (s.schedule = [] → ∀ k, Host.Core.run Sys2Proof.core k s = .next s) ∧
    cycleStep s = .next s ∧ (timerStep s).Parked t ∧
    timerStep s = { s with dt := (timerStep s).dt, st := (timerStep s).st }
end

