-- ==== Sys2Proof/Laws/State.lean ====
section
/-! SUPPORT. The small lemmas of the state's updates: what each leaves in each field. All hold by unfolding one record update, so that no later proof unfolds one. -/

namespace Sys2Proof.Machine

/-! ### setMem -/

@[simp] theorem State.setMem_mem (s : State) (m : Memory) : (s.setMem m).mem = m := rfl
@[simp] theorem State.setMem_v (s : State) (m : Memory) : (s.setMem m).v = s.v := rfl
@[simp] theorem State.setMem_i (s : State) (m : Memory) : (s.setMem m).i = s.i := rfl
@[simp] theorem State.setMem_pc (s : State) (m : Memory) : (s.setMem m).pc = s.pc := rfl
@[simp] theorem State.setMem_stack (s : State) (m : Memory) : (s.setMem m).stack = s.stack := rfl
@[simp] theorem State.setMem_dt (s : State) (m : Memory) : (s.setMem m).dt = s.dt := rfl
@[simp] theorem State.setMem_st (s : State) (m : Memory) : (s.setMem m).st = s.st := rfl
@[simp] theorem State.setMem_fb (s : State) (m : Memory) : (s.setMem m).fb = s.fb := rfl
@[simp] theorem State.setMem_keys (s : State) (m : Memory) : (s.setMem m).keys = s.keys := rfl
@[simp] theorem State.setMem_latch (s : State) (m : Memory) : (s.setMem m).latch = s.latch := rfl
@[simp] theorem State.setMem_halt (s : State) (m : Memory) : (s.setMem m).halt = s.halt := rfl
@[simp] theorem State.setMem_schedule (s : State) (m : Memory) : (s.setMem m).schedule = s.schedule := rfl
@[simp] theorem State.setMem_draws (s : State) (m : Memory) : (s.setMem m).draws = s.draws := rfl
@[simp] theorem State.setMem_hostLog (s : State) (m : Memory) : (s.setMem m).hostLog = s.hostLog := rfl
@[simp] theorem State.getV_setMem (s : State) (m : Memory) (r : RegIdx) : (s.setMem m).getV r = s.getV r := rfl

/-! ### setV -/

@[simp] theorem State.setV_mem (s : State) (r : RegIdx) (b : Byte) : (s.setV r b).mem = s.mem := rfl
@[simp] theorem State.setV_v (s : State) (r : RegIdx) (b : Byte) : (s.setV r b).v = RegFile.put s.v r b := rfl
@[simp] theorem State.setV_i (s : State) (r : RegIdx) (b : Byte) : (s.setV r b).i = s.i := rfl
@[simp] theorem State.setV_pc (s : State) (r : RegIdx) (b : Byte) : (s.setV r b).pc = s.pc := rfl
@[simp] theorem State.setV_stack (s : State) (r : RegIdx) (b : Byte) : (s.setV r b).stack = s.stack := rfl
@[simp] theorem State.setV_dt (s : State) (r : RegIdx) (b : Byte) : (s.setV r b).dt = s.dt := rfl
@[simp] theorem State.setV_st (s : State) (r : RegIdx) (b : Byte) : (s.setV r b).st = s.st := rfl
@[simp] theorem State.setV_fb (s : State) (r : RegIdx) (b : Byte) : (s.setV r b).fb = s.fb := rfl
@[simp] theorem State.setV_keys (s : State) (r : RegIdx) (b : Byte) : (s.setV r b).keys = s.keys := rfl
@[simp] theorem State.setV_latch (s : State) (r : RegIdx) (b : Byte) : (s.setV r b).latch = s.latch := rfl
@[simp] theorem State.setV_halt (s : State) (r : RegIdx) (b : Byte) : (s.setV r b).halt = s.halt := rfl
@[simp] theorem State.setV_schedule (s : State) (r : RegIdx) (b : Byte) : (s.setV r b).schedule = s.schedule := rfl
@[simp] theorem State.setV_draws (s : State) (r : RegIdx) (b : Byte) : (s.setV r b).draws = s.draws := rfl
@[simp] theorem State.setV_hostLog (s : State) (r : RegIdx) (b : Byte) : (s.setV r b).hostLog = s.hostLog := rfl

/-! ### setRegs -/

@[simp] theorem State.setRegs_mem (s : State) (f : RegFile) : (s.setRegs f).mem = s.mem := rfl
@[simp] theorem State.setRegs_v (s : State) (f : RegFile) : (s.setRegs f).v = f := rfl
@[simp] theorem State.setRegs_i (s : State) (f : RegFile) : (s.setRegs f).i = s.i := rfl
@[simp] theorem State.setRegs_pc (s : State) (f : RegFile) : (s.setRegs f).pc = s.pc := rfl
@[simp] theorem State.setRegs_stack (s : State) (f : RegFile) : (s.setRegs f).stack = s.stack := rfl
@[simp] theorem State.setRegs_dt (s : State) (f : RegFile) : (s.setRegs f).dt = s.dt := rfl
@[simp] theorem State.setRegs_st (s : State) (f : RegFile) : (s.setRegs f).st = s.st := rfl
@[simp] theorem State.setRegs_fb (s : State) (f : RegFile) : (s.setRegs f).fb = s.fb := rfl
@[simp] theorem State.setRegs_keys (s : State) (f : RegFile) : (s.setRegs f).keys = s.keys := rfl
@[simp] theorem State.setRegs_latch (s : State) (f : RegFile) : (s.setRegs f).latch = s.latch := rfl
@[simp] theorem State.setRegs_halt (s : State) (f : RegFile) : (s.setRegs f).halt = s.halt := rfl
@[simp] theorem State.setRegs_schedule (s : State) (f : RegFile) : (s.setRegs f).schedule = s.schedule := rfl
@[simp] theorem State.setRegs_draws (s : State) (f : RegFile) : (s.setRegs f).draws = s.draws := rfl
@[simp] theorem State.setRegs_hostLog (s : State) (f : RegFile) : (s.setRegs f).hostLog = s.hostLog := rfl

/-! ### setI -/

@[simp] theorem State.setI_mem (s : State) (w : Word) : (s.setI w).mem = s.mem := rfl
@[simp] theorem State.setI_v (s : State) (w : Word) : (s.setI w).v = s.v := rfl
@[simp] theorem State.setI_i (s : State) (w : Word) : (s.setI w).i = w := rfl
@[simp] theorem State.setI_pc (s : State) (w : Word) : (s.setI w).pc = s.pc := rfl
@[simp] theorem State.setI_stack (s : State) (w : Word) : (s.setI w).stack = s.stack := rfl
@[simp] theorem State.setI_dt (s : State) (w : Word) : (s.setI w).dt = s.dt := rfl
@[simp] theorem State.setI_st (s : State) (w : Word) : (s.setI w).st = s.st := rfl
@[simp] theorem State.setI_fb (s : State) (w : Word) : (s.setI w).fb = s.fb := rfl
@[simp] theorem State.setI_keys (s : State) (w : Word) : (s.setI w).keys = s.keys := rfl
@[simp] theorem State.setI_latch (s : State) (w : Word) : (s.setI w).latch = s.latch := rfl
@[simp] theorem State.setI_halt (s : State) (w : Word) : (s.setI w).halt = s.halt := rfl
@[simp] theorem State.setI_schedule (s : State) (w : Word) : (s.setI w).schedule = s.schedule := rfl
@[simp] theorem State.setI_draws (s : State) (w : Word) : (s.setI w).draws = s.draws := rfl
@[simp] theorem State.setI_hostLog (s : State) (w : Word) : (s.setI w).hostLog = s.hostLog := rfl
@[simp] theorem State.getV_setI (s : State) (w : Word) (r : RegIdx) : (s.setI w).getV r = s.getV r := rfl

/-! ### setDt -/

@[simp] theorem State.setDt_mem (s : State) (b : Byte) : (s.setDt b).mem = s.mem := rfl
@[simp] theorem State.setDt_v (s : State) (b : Byte) : (s.setDt b).v = s.v := rfl
@[simp] theorem State.setDt_i (s : State) (b : Byte) : (s.setDt b).i = s.i := rfl
@[simp] theorem State.setDt_pc (s : State) (b : Byte) : (s.setDt b).pc = s.pc := rfl
@[simp] theorem State.setDt_stack (s : State) (b : Byte) : (s.setDt b).stack = s.stack := rfl
@[simp] theorem State.setDt_dt (s : State) (b : Byte) : (s.setDt b).dt = b := rfl
@[simp] theorem State.setDt_st (s : State) (b : Byte) : (s.setDt b).st = s.st := rfl
@[simp] theorem State.setDt_fb (s : State) (b : Byte) : (s.setDt b).fb = s.fb := rfl
@[simp] theorem State.setDt_keys (s : State) (b : Byte) : (s.setDt b).keys = s.keys := rfl
@[simp] theorem State.setDt_latch (s : State) (b : Byte) : (s.setDt b).latch = s.latch := rfl
@[simp] theorem State.setDt_halt (s : State) (b : Byte) : (s.setDt b).halt = s.halt := rfl
@[simp] theorem State.setDt_schedule (s : State) (b : Byte) : (s.setDt b).schedule = s.schedule := rfl
@[simp] theorem State.setDt_draws (s : State) (b : Byte) : (s.setDt b).draws = s.draws := rfl
@[simp] theorem State.setDt_hostLog (s : State) (b : Byte) : (s.setDt b).hostLog = s.hostLog := rfl
@[simp] theorem State.getV_setDt (s : State) (b : Byte) (r : RegIdx) : (s.setDt b).getV r = s.getV r := rfl

/-! ### setSt -/

@[simp] theorem State.setSt_mem (s : State) (b : Byte) : (s.setSt b).mem = s.mem := rfl
@[simp] theorem State.setSt_v (s : State) (b : Byte) : (s.setSt b).v = s.v := rfl
@[simp] theorem State.setSt_i (s : State) (b : Byte) : (s.setSt b).i = s.i := rfl
@[simp] theorem State.setSt_pc (s : State) (b : Byte) : (s.setSt b).pc = s.pc := rfl
@[simp] theorem State.setSt_stack (s : State) (b : Byte) : (s.setSt b).stack = s.stack := rfl
@[simp] theorem State.setSt_dt (s : State) (b : Byte) : (s.setSt b).dt = s.dt := rfl
@[simp] theorem State.setSt_st (s : State) (b : Byte) : (s.setSt b).st = b := rfl
@[simp] theorem State.setSt_fb (s : State) (b : Byte) : (s.setSt b).fb = s.fb := rfl
@[simp] theorem State.setSt_keys (s : State) (b : Byte) : (s.setSt b).keys = s.keys := rfl
@[simp] theorem State.setSt_latch (s : State) (b : Byte) : (s.setSt b).latch = s.latch := rfl
@[simp] theorem State.setSt_halt (s : State) (b : Byte) : (s.setSt b).halt = s.halt := rfl
@[simp] theorem State.setSt_schedule (s : State) (b : Byte) : (s.setSt b).schedule = s.schedule := rfl
@[simp] theorem State.setSt_draws (s : State) (b : Byte) : (s.setSt b).draws = s.draws := rfl
@[simp] theorem State.setSt_hostLog (s : State) (b : Byte) : (s.setSt b).hostLog = s.hostLog := rfl
@[simp] theorem State.getV_setSt (s : State) (b : Byte) (r : RegIdx) : (s.setSt b).getV r = s.getV r := rfl

/-! ### setPc -/

@[simp] theorem State.setPc_mem (s : State) (t : Word) : (s.setPc t).mem = s.mem := rfl
@[simp] theorem State.setPc_v (s : State) (t : Word) : (s.setPc t).v = s.v := rfl
@[simp] theorem State.setPc_i (s : State) (t : Word) : (s.setPc t).i = s.i := rfl
@[simp] theorem State.setPc_pc (s : State) (t : Word) : (s.setPc t).pc = t := rfl
@[simp] theorem State.setPc_stack (s : State) (t : Word) : (s.setPc t).stack = s.stack := rfl
@[simp] theorem State.setPc_dt (s : State) (t : Word) : (s.setPc t).dt = s.dt := rfl
@[simp] theorem State.setPc_st (s : State) (t : Word) : (s.setPc t).st = s.st := rfl
@[simp] theorem State.setPc_fb (s : State) (t : Word) : (s.setPc t).fb = s.fb := rfl
@[simp] theorem State.setPc_keys (s : State) (t : Word) : (s.setPc t).keys = s.keys := rfl
@[simp] theorem State.setPc_latch (s : State) (t : Word) : (s.setPc t).latch = s.latch := rfl
@[simp] theorem State.setPc_halt (s : State) (t : Word) : (s.setPc t).halt = s.halt := rfl
@[simp] theorem State.setPc_schedule (s : State) (t : Word) : (s.setPc t).schedule = s.schedule := rfl
@[simp] theorem State.setPc_draws (s : State) (t : Word) : (s.setPc t).draws = s.draws := rfl
@[simp] theorem State.setPc_hostLog (s : State) (t : Word) : (s.setPc t).hostLog = s.hostLog := rfl
@[simp] theorem State.getV_setPc (s : State) (t : Word) (r : RegIdx) : (s.setPc t).getV r = s.getV r := rfl

/-! ### setStack -/

@[simp] theorem State.setStack_mem (s : State) (l : List Word) : (s.setStack l).mem = s.mem := rfl
@[simp] theorem State.setStack_v (s : State) (l : List Word) : (s.setStack l).v = s.v := rfl
@[simp] theorem State.setStack_i (s : State) (l : List Word) : (s.setStack l).i = s.i := rfl
@[simp] theorem State.setStack_pc (s : State) (l : List Word) : (s.setStack l).pc = s.pc := rfl
@[simp] theorem State.setStack_stack (s : State) (l : List Word) : (s.setStack l).stack = l := rfl
@[simp] theorem State.setStack_dt (s : State) (l : List Word) : (s.setStack l).dt = s.dt := rfl
@[simp] theorem State.setStack_st (s : State) (l : List Word) : (s.setStack l).st = s.st := rfl
@[simp] theorem State.setStack_fb (s : State) (l : List Word) : (s.setStack l).fb = s.fb := rfl
@[simp] theorem State.setStack_keys (s : State) (l : List Word) : (s.setStack l).keys = s.keys := rfl
@[simp] theorem State.setStack_latch (s : State) (l : List Word) : (s.setStack l).latch = s.latch := rfl
@[simp] theorem State.setStack_halt (s : State) (l : List Word) : (s.setStack l).halt = s.halt := rfl
@[simp] theorem State.setStack_schedule (s : State) (l : List Word) : (s.setStack l).schedule = s.schedule := rfl
@[simp] theorem State.setStack_draws (s : State) (l : List Word) : (s.setStack l).draws = s.draws := rfl
@[simp] theorem State.setStack_hostLog (s : State) (l : List Word) : (s.setStack l).hostLog = s.hostLog := rfl
@[simp] theorem State.getV_setStack (s : State) (l : List Word) (r : RegIdx) : (s.setStack l).getV r = s.getV r := rfl

/-! ### setFb -/

@[simp] theorem State.setFb_mem (s : State) (fb : Framebuffer) : (s.setFb fb).mem = s.mem := rfl
@[simp] theorem State.setFb_v (s : State) (fb : Framebuffer) : (s.setFb fb).v = s.v := rfl
@[simp] theorem State.setFb_i (s : State) (fb : Framebuffer) : (s.setFb fb).i = s.i := rfl
@[simp] theorem State.setFb_pc (s : State) (fb : Framebuffer) : (s.setFb fb).pc = s.pc := rfl
@[simp] theorem State.setFb_stack (s : State) (fb : Framebuffer) : (s.setFb fb).stack = s.stack := rfl
@[simp] theorem State.setFb_dt (s : State) (fb : Framebuffer) : (s.setFb fb).dt = s.dt := rfl
@[simp] theorem State.setFb_st (s : State) (fb : Framebuffer) : (s.setFb fb).st = s.st := rfl
@[simp] theorem State.setFb_fb (s : State) (fb : Framebuffer) : (s.setFb fb).fb = fb := rfl
@[simp] theorem State.setFb_keys (s : State) (fb : Framebuffer) : (s.setFb fb).keys = s.keys := rfl
@[simp] theorem State.setFb_latch (s : State) (fb : Framebuffer) : (s.setFb fb).latch = s.latch := rfl
@[simp] theorem State.setFb_halt (s : State) (fb : Framebuffer) : (s.setFb fb).halt = s.halt := rfl
@[simp] theorem State.setFb_schedule (s : State) (fb : Framebuffer) : (s.setFb fb).schedule = s.schedule := rfl
@[simp] theorem State.setFb_draws (s : State) (fb : Framebuffer) : (s.setFb fb).draws = s.draws := rfl
@[simp] theorem State.setFb_hostLog (s : State) (fb : Framebuffer) : (s.setFb fb).hostLog = s.hostLog := rfl
@[simp] theorem State.getV_setFb (s : State) (fb : Framebuffer) (r : RegIdx) : (s.setFb fb).getV r = s.getV r := rfl

/-! ### setKeys -/

@[simp] theorem State.setKeys_mem (s : State) (k : KeyState) : (s.setKeys k).mem = s.mem := rfl
@[simp] theorem State.setKeys_v (s : State) (k : KeyState) : (s.setKeys k).v = s.v := rfl
@[simp] theorem State.setKeys_i (s : State) (k : KeyState) : (s.setKeys k).i = s.i := rfl
@[simp] theorem State.setKeys_pc (s : State) (k : KeyState) : (s.setKeys k).pc = s.pc := rfl
@[simp] theorem State.setKeys_stack (s : State) (k : KeyState) : (s.setKeys k).stack = s.stack := rfl
@[simp] theorem State.setKeys_dt (s : State) (k : KeyState) : (s.setKeys k).dt = s.dt := rfl
@[simp] theorem State.setKeys_st (s : State) (k : KeyState) : (s.setKeys k).st = s.st := rfl
@[simp] theorem State.setKeys_fb (s : State) (k : KeyState) : (s.setKeys k).fb = s.fb := rfl
@[simp] theorem State.setKeys_keys (s : State) (k : KeyState) : (s.setKeys k).keys = k := rfl
@[simp] theorem State.setKeys_latch (s : State) (k : KeyState) : (s.setKeys k).latch = s.latch := rfl
@[simp] theorem State.setKeys_halt (s : State) (k : KeyState) : (s.setKeys k).halt = s.halt := rfl
@[simp] theorem State.setKeys_schedule (s : State) (k : KeyState) : (s.setKeys k).schedule = s.schedule := rfl
@[simp] theorem State.setKeys_draws (s : State) (k : KeyState) : (s.setKeys k).draws = s.draws := rfl
@[simp] theorem State.setKeys_hostLog (s : State) (k : KeyState) : (s.setKeys k).hostLog = s.hostLog := rfl
@[simp] theorem State.getV_setKeys (s : State) (k : KeyState) (r : RegIdx) : (s.setKeys k).getV r = s.getV r := rfl

/-! ### setLatch -/

@[simp] theorem State.setLatch_mem (s : State) (l : Latch) : (s.setLatch l).mem = s.mem := rfl
@[simp] theorem State.setLatch_v (s : State) (l : Latch) : (s.setLatch l).v = s.v := rfl
@[simp] theorem State.setLatch_i (s : State) (l : Latch) : (s.setLatch l).i = s.i := rfl
@[simp] theorem State.setLatch_pc (s : State) (l : Latch) : (s.setLatch l).pc = s.pc := rfl
@[simp] theorem State.setLatch_stack (s : State) (l : Latch) : (s.setLatch l).stack = s.stack := rfl
@[simp] theorem State.setLatch_dt (s : State) (l : Latch) : (s.setLatch l).dt = s.dt := rfl
@[simp] theorem State.setLatch_st (s : State) (l : Latch) : (s.setLatch l).st = s.st := rfl
@[simp] theorem State.setLatch_fb (s : State) (l : Latch) : (s.setLatch l).fb = s.fb := rfl
@[simp] theorem State.setLatch_keys (s : State) (l : Latch) : (s.setLatch l).keys = s.keys := rfl
@[simp] theorem State.setLatch_latch (s : State) (l : Latch) : (s.setLatch l).latch = l := rfl
@[simp] theorem State.setLatch_halt (s : State) (l : Latch) : (s.setLatch l).halt = s.halt := rfl
@[simp] theorem State.setLatch_schedule (s : State) (l : Latch) : (s.setLatch l).schedule = s.schedule := rfl
@[simp] theorem State.setLatch_draws (s : State) (l : Latch) : (s.setLatch l).draws = s.draws := rfl
@[simp] theorem State.setLatch_hostLog (s : State) (l : Latch) : (s.setLatch l).hostLog = s.hostLog := rfl
@[simp] theorem State.getV_setLatch (s : State) (l : Latch) (r : RegIdx) : (s.setLatch l).getV r = s.getV r := rfl

/-! ### raise -/

@[simp] theorem State.raise_mem (s : State) (h : Halt) : (s.raise h).mem = s.mem := rfl
@[simp] theorem State.raise_v (s : State) (h : Halt) : (s.raise h).v = s.v := rfl
@[simp] theorem State.raise_i (s : State) (h : Halt) : (s.raise h).i = s.i := rfl
@[simp] theorem State.raise_pc (s : State) (h : Halt) : (s.raise h).pc = s.pc := rfl
@[simp] theorem State.raise_stack (s : State) (h : Halt) : (s.raise h).stack = s.stack := rfl
@[simp] theorem State.raise_dt (s : State) (h : Halt) : (s.raise h).dt = s.dt := rfl
@[simp] theorem State.raise_st (s : State) (h : Halt) : (s.raise h).st = s.st := rfl
@[simp] theorem State.raise_fb (s : State) (h : Halt) : (s.raise h).fb = s.fb := rfl
@[simp] theorem State.raise_keys (s : State) (h : Halt) : (s.raise h).keys = s.keys := rfl
@[simp] theorem State.raise_latch (s : State) (h : Halt) : (s.raise h).latch = s.latch := rfl
@[simp] theorem State.raise_halt (s : State) (h : Halt) : (s.raise h).halt = some h := rfl
@[simp] theorem State.raise_schedule (s : State) (h : Halt) : (s.raise h).schedule = s.schedule := rfl
@[simp] theorem State.raise_draws (s : State) (h : Halt) : (s.raise h).draws = s.draws := rfl
@[simp] theorem State.raise_hostLog (s : State) (h : Halt) : (s.raise h).hostLog = s.hostLog := rfl
@[simp] theorem State.getV_raise (s : State) (h : Halt) (r : RegIdx) : (s.raise h).getV r = s.getV r := rfl

/-! ### consumeDraw -/

@[simp] theorem State.consumeDraw_mem (s : State) : s.consumeDraw.mem = s.mem := rfl
@[simp] theorem State.consumeDraw_v (s : State) : s.consumeDraw.v = s.v := rfl
@[simp] theorem State.consumeDraw_i (s : State) : s.consumeDraw.i = s.i := rfl
@[simp] theorem State.consumeDraw_pc (s : State) : s.consumeDraw.pc = s.pc := rfl
@[simp] theorem State.consumeDraw_stack (s : State) : s.consumeDraw.stack = s.stack := rfl
@[simp] theorem State.consumeDraw_dt (s : State) : s.consumeDraw.dt = s.dt := rfl
@[simp] theorem State.consumeDraw_st (s : State) : s.consumeDraw.st = s.st := rfl
@[simp] theorem State.consumeDraw_fb (s : State) : s.consumeDraw.fb = s.fb := rfl
@[simp] theorem State.consumeDraw_keys (s : State) : s.consumeDraw.keys = s.keys := rfl
@[simp] theorem State.consumeDraw_latch (s : State) : s.consumeDraw.latch = s.latch := rfl
@[simp] theorem State.consumeDraw_halt (s : State) : s.consumeDraw.halt = s.halt := rfl
@[simp] theorem State.consumeDraw_schedule (s : State) : s.consumeDraw.schedule = s.schedule := rfl
@[simp] theorem State.consumeDraw_draws (s : State) : s.consumeDraw.draws = s.draws + 1 := rfl
@[simp] theorem State.consumeDraw_hostLog (s : State) : s.consumeDraw.hostLog = s.hostLog := rfl
@[simp] theorem State.getV_consumeDraw (s : State) (r : RegIdx) : s.consumeDraw.getV r = s.getV r := rfl

/-! ### note -/

@[simp] theorem State.note_mem (s : State) (n : HostNote) : (s.note n).mem = s.mem := rfl
@[simp] theorem State.note_v (s : State) (n : HostNote) : (s.note n).v = s.v := rfl
@[simp] theorem State.note_i (s : State) (n : HostNote) : (s.note n).i = s.i := rfl
@[simp] theorem State.note_pc (s : State) (n : HostNote) : (s.note n).pc = s.pc := rfl
@[simp] theorem State.note_stack (s : State) (n : HostNote) : (s.note n).stack = s.stack := rfl
@[simp] theorem State.note_dt (s : State) (n : HostNote) : (s.note n).dt = s.dt := rfl
@[simp] theorem State.note_st (s : State) (n : HostNote) : (s.note n).st = s.st := rfl
@[simp] theorem State.note_fb (s : State) (n : HostNote) : (s.note n).fb = s.fb := rfl
@[simp] theorem State.note_keys (s : State) (n : HostNote) : (s.note n).keys = s.keys := rfl
@[simp] theorem State.note_latch (s : State) (n : HostNote) : (s.note n).latch = s.latch := rfl
@[simp] theorem State.note_halt (s : State) (n : HostNote) : (s.note n).halt = s.halt := rfl
@[simp] theorem State.note_schedule (s : State) (n : HostNote) : (s.note n).schedule = s.schedule := rfl
@[simp] theorem State.note_draws (s : State) (n : HostNote) : (s.note n).draws = s.draws := rfl
@[simp] theorem State.note_hostLog (s : State) (n : HostNote) : (s.note n).hostLog = s.hostLog ++ [n] := rfl
@[simp] theorem State.getV_note (s : State) (n : HostNote) (r : RegIdx) : (s.note n).getV r = s.getV r := rfl

/-! ### setSchedule -/

@[simp] theorem State.setSchedule_mem (s : State) (l : List Event) : (s.setSchedule l).mem = s.mem := rfl
@[simp] theorem State.setSchedule_v (s : State) (l : List Event) : (s.setSchedule l).v = s.v := rfl
@[simp] theorem State.setSchedule_i (s : State) (l : List Event) : (s.setSchedule l).i = s.i := rfl
@[simp] theorem State.setSchedule_pc (s : State) (l : List Event) : (s.setSchedule l).pc = s.pc := rfl
@[simp] theorem State.setSchedule_stack (s : State) (l : List Event) : (s.setSchedule l).stack = s.stack := rfl
@[simp] theorem State.setSchedule_dt (s : State) (l : List Event) : (s.setSchedule l).dt = s.dt := rfl
@[simp] theorem State.setSchedule_st (s : State) (l : List Event) : (s.setSchedule l).st = s.st := rfl
@[simp] theorem State.setSchedule_fb (s : State) (l : List Event) : (s.setSchedule l).fb = s.fb := rfl
@[simp] theorem State.setSchedule_keys (s : State) (l : List Event) : (s.setSchedule l).keys = s.keys := rfl
@[simp] theorem State.setSchedule_latch (s : State) (l : List Event) : (s.setSchedule l).latch = s.latch := rfl
@[simp] theorem State.setSchedule_halt (s : State) (l : List Event) : (s.setSchedule l).halt = s.halt := rfl
@[simp] theorem State.setSchedule_schedule (s : State) (l : List Event) : (s.setSchedule l).schedule = l := rfl
@[simp] theorem State.setSchedule_draws (s : State) (l : List Event) : (s.setSchedule l).draws = s.draws := rfl
@[simp] theorem State.setSchedule_hostLog (s : State) (l : List Event) : (s.setSchedule l).hostLog = s.hostLog := rfl
@[simp] theorem State.getV_setSchedule (s : State) (l : List Event) (r : RegIdx) : (s.setSchedule l).getV r = s.getV r := rfl

/-! ### Updates made of those -/

@[simp] theorem State.setVFlag_eq (s : State) (x : RegIdx) (a f : Byte) :
    s.setVFlag x a f = (s.setV x a).setV vfIdx f := rfl
@[simp] theorem State.advancePc_eq (s : State) : s.advancePc = s.setPc (s.pc + 2) := rfl
@[simp] theorem State.rewindPc_eq (s : State) : s.rewindPc = s.setPc (s.pc - 2) := rfl
@[simp] theorem State.push_eq (s : State) (w : Word) : s.push w = s.setStack (s.stack ++ [w]) := rfl
@[simp] theorem State.latchRelease_eq (s : State) (k : Nibble) : s.latchRelease k = s.setLatch ⟨true, k⟩ := rfl
@[simp] theorem State.consumeLatch_eq (s : State) : s.consumeLatch = s.setLatch ⟨false, s.latch.key⟩ := rfl
@[simp] theorem State.raiseDataRange_eq (s : State) :
    s.raiseDataRange = s.raise (.addrRangeData s.instrAddr s.i) := rfl
@[simp] theorem State.unknownOpcode_eq (s : State) (a w : Word) : s.unknownOpcode a w = s.note (.unknown a w) := rfl
@[simp] theorem State.skipIf_true (s : State) : s.skipIf true = s.setPc (s.pc + 2) := rfl
@[simp] theorem State.skipIf_false (s : State) : s.skipIf false = s := rfl

/-- A skip is the `pc` it leaves, and nothing else. -/
theorem State.skipIf_eq (s : State) (c : Bool) : s.skipIf c = s.setPc (if c then s.pc + 2 else s.pc) := by
  cases c <;> rfl

/-- Popping a non-empty stack. -/
theorem State.pop_eq_some {s t : State} {w : Word} (h : s.pop = some (w, t)) :
    s.stack = t.stack ++ [w] ∧ t = s.setStack t.stack := by
  unfold State.pop at h
  split at h
  · cases h
  · next v hv =>
    simp only [Option.some.injEq, Prod.mk.injEq] at h
    obtain ⟨rfl, rfl⟩ := h
    exact ⟨(List.dropLast_append_getLast? _ (by simp [hv])).symm, rfl⟩

/-- Popping what was pushed last. -/
theorem State.pop_concat (s : State) (l : List Word) (w : Word) (h : s.stack = l ++ [w]) :
    s.pop = some (w, s.setStack l) := by
  simp [State.pop, h]

/-- Popping an empty stack. -/
theorem State.pop_nil (s : State) (h : s.stack = []) : s.pop = none := by
  simp [State.pop, h]

end Sys2Proof.Machine
end

