-- ==== Sys2Proof/Laws/Framebuffer.lean ====
section
/-! SUPPORT. The framebuffer: pixels after writes. -/

namespace Sys2Proof.Machine

/-- A pixel after one pixel is set (R28). -/
theorem Framebuffer.pixel_setPixel (fb : Framebuffer) (r c : Nat) (b : Bool) (r' c' : Nat) :
    Framebuffer.pixel (Framebuffer.setPixel fb r c b) r' c' =
      if r' % 32 = r % 32 ∧ c' % 64 = c % 64 then b else Framebuffer.pixel fb r' c' := by
  unfold Framebuffer.pixel Framebuffer.setPixel
  simp only [Vector.getElem_set]
  by_cases hr : r % 32 = r' % 32
  · by_cases hc : c % 64 = c' % 64
    · simp [hr, hc]
    · have hc' : ¬ c' % 64 = c % 64 := fun e => hc e.symm
      simp [hr, hc, hc']
  · have hr' : ¬ r' % 32 = r % 32 := fun e => hr e.symm
    simp [hr, hr']

/-- A pixel after one toggle (R211). -/
theorem Framebuffer.pixel_toggle (fb : Framebuffer) (r c r' c' : Nat) :
    Framebuffer.pixel (Framebuffer.toggle fb r c) r' c' =
      (Framebuffer.pixel fb r' c' ^^ decide (r' % 32 = r % 32 ∧ c' % 64 = c % 64)) := by
  unfold Framebuffer.toggle
  rw [Framebuffer.pixel_setPixel]
  by_cases h : r' % 32 = r % 32 ∧ c' % 64 = c % 64
  · have : Framebuffer.pixel fb r c = Framebuffer.pixel fb r' c' := by simp [Framebuffer.pixel, h.1, h.2]
    simp [h, this]
  · simp [h]

/-- Every pixel of a cleared framebuffer is off (R210). -/
@[simp] theorem Framebuffer.pixel_clear (r c : Nat) : Framebuffer.pixel Framebuffer.clear r c = false := by
  simp [Framebuffer.pixel, Framebuffer.clear]

/-- Framebuffers with the same pixels are equal. -/
theorem Framebuffer.ext_pixel {fb fb' : Framebuffer} (h : ∀ r c, Framebuffer.pixel fb r c = Framebuffer.pixel fb' r c) :
    fb = fb' := by
  refine Vector.ext fun r hr => Vector.ext fun c hc => ?_
  have := h r c
  simpa [Framebuffer.pixel, Nat.mod_eq_of_lt hr, Nat.mod_eq_of_lt hc] using this

/-- A pixel's coordinates count modulo 32 and 64 (R28). -/
theorem Framebuffer.pixel_mod (fb : Framebuffer) (r c : Nat) :
    Framebuffer.pixel fb (r % 32) (c % 64) = Framebuffer.pixel fb r c := by
  simp [Framebuffer.pixel]

end Sys2Proof.Machine
end

