-- ==== Sys2Proof/Laws/Memory.lean ====
section
/-! SUPPORT. Memory: reads after writes, and that every memory operation keeps the canonical form. -/

namespace Sys2Proof.Machine

/-! ### One byte -/

@[simp] theorem Memory.read_nil (a : Nat) : Memory.read [] a = Memory.unlisted a := rfl

@[simp] theorem Memory.read_cons (k : Nat) (b : Byte) (m : Memory) (a : Nat) :
    Memory.read ((k, b) :: m) a = if a = k then b else Memory.read m a := rfl

theorem Memory.wfFrom_cons {lo k : Nat} {b : Byte} {m : Memory} :
    Memory.wfFrom lo ((k, b) :: m) = true ↔
      (lo ≤ k ∧ k < Config.memSize ∧ b ≠ Memory.unlisted k) ∧ Memory.wfFrom (k + 1) m = true := by
  simp [Memory.wfFrom]

theorem Memory.wfFrom_mono {lo lo' : Nat} {m : Memory} (h : Memory.wfFrom lo m = true) (hle : lo' ≤ lo) :
    Memory.wfFrom lo' m = true := by
  cases m with
  | nil => rfl
  | cons c m =>
    rw [Memory.wfFrom_cons] at h ⊢
    exact ⟨⟨by omega, h.1.2⟩, h.2⟩

/-- Below every listed address, memory reads as its reset contents. -/
theorem Memory.read_of_lt {lo a : Nat} {m : Memory} (h : Memory.wfFrom lo m = true) (ha : a < lo) :
    Memory.read m a = Memory.unlisted a := by
  induction m generalizing lo with
  | nil => rfl
  | cons c m ih =>
    obtain ⟨k, b⟩ := c
    rw [Memory.wfFrom_cons] at h
    rw [Memory.read_cons, if_neg (by omega)]
    exact ih h.2 (by omega)

/-- Outside the address space, canonical memory reads as its reset contents. -/
theorem Memory.read_of_ge {lo a : Nat} {m : Memory} (h : Memory.wfFrom lo m = true) (ha : Config.memSize ≤ a) :
    Memory.read m a = Memory.unlisted a := by
  induction m generalizing lo with
  | nil => rfl
  | cons c m ih =>
    obtain ⟨k, b⟩ := c
    rw [Memory.wfFrom_cons] at h
    rw [Memory.read_cons, if_neg (by omega)]
    exact ih h.2

theorem Memory.read_consCell_ne (a : Nat) (b : Byte) (m : Memory) (a' : Nat) (h : a' ≠ a) :
    Memory.read (Memory.consCell a b m) a' = Memory.read m a' := by
  unfold Memory.consCell
  split <;> simp [h]

theorem Memory.read_consCell_self {a : Nat} {b : Byte} {m : Memory} (h : Memory.wfFrom (a + 1) m = true) :
    Memory.read (Memory.consCell a b m) a = b := by
  unfold Memory.consCell
  split
  · next hb => rw [Memory.read_of_lt h (by omega), hb]
  · simp

/-- A write leaves every other byte alone, whatever the list. -/
theorem Memory.read_write_ne (m : Memory) (a : Nat) (b : Byte) (a' : Nat) (h : a' ≠ a) :
    Memory.read (Memory.write m a b) a' = Memory.read m a' := by
  induction m with
  | nil => exact Memory.read_consCell_ne a b [] a' h
  | cons c m ih =>
    obtain ⟨k, c⟩ := c
    unfold Memory.write
    split
    · exact Memory.read_consCell_ne a b _ a' h
    · split
      · next hk => rw [Memory.read_consCell_ne a b m a' h, Memory.read_cons, if_neg (by omega)]
      · simp [ih]

theorem Memory.read_write_self_from {lo : Nat} {m : Memory} (a : Nat) (b : Byte) (h : Memory.wfFrom lo m = true) :
    Memory.read (Memory.write m a b) a = b := by
  induction m generalizing lo with
  | nil => exact Memory.read_consCell_self rfl
  | cons c m ih =>
    obtain ⟨k, c⟩ := c
    have hw := Memory.wfFrom_cons.1 h
    unfold Memory.write
    split
    · next hk => exact Memory.read_consCell_self (Memory.wfFrom_mono (lo := k) (Memory.wfFrom_cons.2 ⟨⟨le_refl k, hw.1.2⟩, hw.2⟩) hk)
    · split
      · next hk => subst hk; exact Memory.read_consCell_self hw.2
      · next hk => rw [Memory.read_cons, if_neg hk]; exact ih hw.2

/-- The byte written is the byte read (R65, R73). -/
theorem Memory.read_write_self {m : Memory} (a : Nat) (b : Byte) (h : Memory.wf m = true) :
    Memory.read (Memory.write m a b) a = b := Memory.read_write_self_from a b h

theorem Memory.wfFrom_consCell {lo a : Nat} {b : Byte} {m : Memory} (hlo : lo ≤ a) (ha : a < Config.memSize)
    (h : Memory.wfFrom (a + 1) m = true) : Memory.wfFrom lo (Memory.consCell a b m) = true := by
  unfold Memory.consCell
  split
  · exact Memory.wfFrom_mono h (by omega)
  · next hb => exact Memory.wfFrom_cons.2 ⟨⟨hlo, ha, hb⟩, h⟩

theorem Memory.wfFrom_write {lo : Nat} {m : Memory} {a : Nat} (b : Byte) (hlo : lo ≤ a) (ha : a < Config.memSize)
    (h : Memory.wfFrom lo m = true) : Memory.wfFrom lo (Memory.write m a b) = true := by
  induction m generalizing lo with
  | nil => exact Memory.wfFrom_consCell hlo ha rfl
  | cons c m ih =>
    obtain ⟨k, c⟩ := c
    have hw := Memory.wfFrom_cons.1 h
    unfold Memory.write
    split
    · next hk =>
      exact Memory.wfFrom_consCell hlo ha (Memory.wfFrom_mono (Memory.wfFrom_cons.2 ⟨⟨le_refl k, hw.1.2⟩, hw.2⟩) hk)
    · split
      · next hk => subst hk; exact Memory.wfFrom_consCell hlo ha hw.2
      · next hk hne => exact Memory.wfFrom_cons.2 ⟨hw.1, ih (by omega) hw.2⟩

/-- Writing a byte of the address space keeps the canonical form. -/
theorem Memory.wf_write {m : Memory} {a : Nat} (b : Byte) (ha : a < Config.memSize) (h : Memory.wf m = true) :
    Memory.wf (Memory.write m a b) = true := Memory.wfFrom_write b (Nat.zero_le a) ha h

/-- Reset memory is in canonical form. -/
theorem Memory.wf_nil : Memory.wf [] = true := rfl

/-- Canonical memories that read alike are the same list. -/
theorem Memory.ext_wfFrom {lo : Nat} {m m' : Memory} (h : Memory.wfFrom lo m = true) (h' : Memory.wfFrom lo m' = true)
    (hr : ∀ a, Memory.read m a = Memory.read m' a) : m = m' := by
  induction m generalizing lo m' with
  | nil =>
    cases m' with
    | nil => rfl
    | cons c m' =>
      obtain ⟨k, b⟩ := c
      have hw := Memory.wfFrom_cons.1 h'
      have := hr k
      simp at this
      exact absurd this.symm hw.1.2.2
  | cons c m ih =>
    obtain ⟨k, b⟩ := c
    have hw := Memory.wfFrom_cons.1 h
    cases m' with
    | nil =>
      have := hr k
      simp at this
      exact absurd this hw.1.2.2
    | cons c' m' =>
      obtain ⟨k', b'⟩ := c'
      have hw' := Memory.wfFrom_cons.1 h'
      have hk : k = k' := by
        rcases Nat.lt_trichotomy k k' with hlt | heq | hgt
        · have := hr k
          rw [Memory.read_cons, if_pos rfl, Memory.read_cons, if_neg (by omega),
            Memory.read_of_lt hw'.2 (by omega)] at this
          exact absurd this hw.1.2.2
        · exact heq
        · have := hr k'
          rw [Memory.read_cons, if_neg (by omega), Memory.read_of_lt hw.2 (by omega), Memory.read_cons, if_pos rfl] at this
          exact absurd this.symm hw'.1.2.2
      subst hk
      have hb : b = b' := by simpa using hr k
      subst hb
      have : m = m' := by
        refine ih hw.2 hw'.2 fun a => ?_
        by_cases ha : a = k
        · subst ha
          rw [Memory.read_of_lt hw.2 (by omega), Memory.read_of_lt hw'.2 (by omega)]
        · simpa [ha] using hr a
      rw [this]

/-- Canonical memories that read alike are equal. -/
theorem Memory.ext_wf {m m' : Memory} (h : Memory.wf m = true) (h' : Memory.wf m' = true)
    (hr : ∀ a, Memory.read m a = Memory.read m' a) : m = m' := Memory.ext_wfFrom h h' hr

/-! ### Several bytes -/

@[simp] theorem Memory.length_readBytes (m : Memory) (base count : Nat) : (Memory.readBytes m base count).length = count := by
  simp [Memory.readBytes]

@[simp] theorem Memory.getElem_readBytes (m : Memory) (base count k : Nat) (h : k < (Memory.readBytes m base count).length) :
    (Memory.readBytes m base count)[k] = Memory.read m (base + k) := by
  simp [Memory.readBytes]

/-- Outside the bytes written, memory reads as before. -/
theorem Memory.read_writeBytes_outside (m : Memory) (base : Nat) (bytes : List Byte) (a : Nat)
    (h : ¬ (base ≤ a ∧ a < base + bytes.length)) :
    Memory.read (Memory.writeBytes m base bytes) a = Memory.read m a := by
  induction bytes generalizing m base with
  | nil => rfl
  | cons b rest ih =>
    simp only [List.length_cons] at h
    unfold Memory.writeBytes
    rw [ih _ _ (by omega), Memory.read_write_ne _ _ _ _ (by omega)]

/-- Writing bytes of the address space keeps the canonical form. -/
theorem Memory.wf_writeBytes {m : Memory} {base : Nat} {bytes : List Byte} (h : Memory.wf m = true)
    (hr : base + bytes.length ≤ Config.memSize) : Memory.wf (Memory.writeBytes m base bytes) = true := by
  induction bytes generalizing m base with
  | nil => exact h
  | cons b rest ih =>
    simp only [List.length_cons] at hr
    exact ih (Memory.wf_write b (by omega) h) (by omega)

/-- The byte at `base + k` is byte `k` of those written, where all of them lie in the address space. -/
theorem Memory.read_writeBytes {m : Memory} {base : Nat} {bytes : List Byte} (h : Memory.wf m = true)
    (hr : base + bytes.length ≤ Config.memSize) (k : Nat) (hk : k < bytes.length) :
    Memory.read (Memory.writeBytes m base bytes) (base + k) = bytes[k] := by
  induction bytes generalizing m base k with
  | nil => simp at hk
  | cons b rest ih =>
    simp only [List.length_cons] at hr hk
    unfold Memory.writeBytes
    cases k with
    | zero =>
      rw [Memory.read_writeBytes_outside _ _ _ _ (by omega)]
      simpa using Memory.read_write_self base b h
    | succ k =>
      have := ih (Memory.wf_write (a := base) b (by omega) h) (base := base + 1) (by omega) k (by omega)
      rw [Nat.add_right_comm base 1 k] at this
      simpa [Nat.add_assoc] using this

/-- Any one address after a write of several bytes. -/
theorem Memory.read_writeBytes_eq {m : Memory} {base : Nat} {bytes : List Byte} (h : Memory.wf m = true)
    (hr : base + bytes.length ≤ Config.memSize) (a : Nat) :
    Memory.read (Memory.writeBytes m base bytes) a =
      if hk : base ≤ a ∧ a < base + bytes.length then bytes[a - base] else Memory.read m a := by
  split
  · next hk =>
    have := Memory.read_writeBytes h hr (a - base) (by omega)
    rwa [Nat.add_sub_cancel' hk.1] at this
  · next hk => exact Memory.read_writeBytes_outside m base bytes a hk

/-- What memory reads as once bytes are stored at `I`, in the statements' words. -/
theorem State.read_writeBytes_index {s : State} {bytes : List Byte} (h : Memory.wf s.mem = true)
    (hl : s.i.toNat + bytes.length ≤ 4096) (a : Nat) :
    Memory.read (Memory.writeBytes s.mem s.i.toNat bytes) a = s.byteAfterStore bytes a := by
  rw [Memory.read_writeBytes_eq h hl, State.byteAfterStore]
  split
  · rw [List.getD_eq_getElem?_getD, List.getElem?_eq_getElem (by omega)]
    rfl
  · rfl

/-! ### The range check -/

@[simp] theorem inRange_zero (base : Nat) : inRange base 0 = true := by simp [inRange]

theorem inRange_iff {base count : Nat} (hc : 0 < count) : inRange base count = true ↔ base + count ≤ 4096 := by
  unfold inRange
  rw [decide_eq_true_iff]
  unfold Config.memSize
  omega

theorem not_inRange_iff {base count : Nat} (hc : 0 < count) : inRange base count = false ↔ 4096 < base + count := by
  unfold inRange
  rw [decide_eq_false_iff_not]
  unfold Config.memSize
  omega

theorem le_of_inRange {base count : Nat} (h : inRange base count = true) (hb : count = 0 → base ≤ Config.memSize) :
    base + count ≤ Config.memSize := by
  simp only [inRange, decide_eq_true_eq] at h
  rcases h with h | h
  · have := hb h; omega
  · exact h

/-- A write of several bytes whose range was checked keeps the canonical form. -/
theorem Memory.wf_writeBytes_inRange {m : Memory} {base : Nat} {bytes : List Byte} (h : Memory.wf m = true)
    (hr : inRange base bytes.length = true) : Memory.wf (Memory.writeBytes m base bytes) = true := by
  cases bytes with
  | nil => exact h
  | cons b rest =>
    have hl := (inRange_iff (by simp)).1 hr
    exact Memory.wf_writeBytes h (by simp only [Config.memSize]; exact hl)

end Sys2Proof.Machine
end

