-- ==== Sys2Proof/Laws/Registers.lean ====
section
/-! SUPPORT. The register file and the flags: reads after writes. -/

namespace Sys2Proof.Machine

theorem RegFile.get_put (f : RegFile) (r : RegIdx) (b : Byte) (q : RegIdx) :
    RegFile.get (RegFile.put f r b) q = if q = r then b else RegFile.get f q := by
  simp only [RegFile.get, RegFile.put, Vector.getElem_set]
  by_cases h : q = r
  · simp [h]
  · rw [if_neg (fun e => h (BitVec.eq_of_toNat_eq e.symm)), if_neg h]

/-- A register after a register write (R21). -/
theorem State.getV_setV (s : State) (r : RegIdx) (b : Byte) (q : RegIdx) :
    (s.setV r b).getV q = if q = r then b else s.getV q := RegFile.get_put s.v r b q

@[simp] theorem State.getV_setV_self (s : State) (r : RegIdx) (b : Byte) : (s.setV r b).getV r = b := by
  simp [State.getV_setV]

theorem State.getV_setV_ne (s : State) {r q : RegIdx} (b : Byte) (h : q ≠ r) : (s.setV r b).getV q = s.getV q := by
  simp [State.getV_setV, h]

/-- The flag is written last and wins (R22 (c)). -/
theorem State.getV_setVFlag (s : State) (x : RegIdx) (a f : Byte) (q : RegIdx) :
    (s.setVFlag x a f).getV q = if q = vfIdx then f else if q = x then a else s.getV q := by
  simp [State.getV_setV]

/-- A register that a write changed is the register written. -/
theorem State.eq_of_getV_setV_ne {s : State} {x r : RegIdx} {b : Byte} (h : (s.setV x b).getV r ≠ s.getV r) : r = x := by
  by_contra hx
  exact h (State.getV_setV_ne s b hx)

/-- A register that a flagged write changed is its destination or `VF`. -/
theorem State.eq_of_getV_setVFlag_ne {s : State} {x r : RegIdx} {b f : Byte}
    (h : (s.setVFlag x b f).getV r ≠ s.getV r) : r = x ∨ r = 15 := by
  by_contra hx
  rw [not_or] at hx
  exact h ((State.getV_setV_ne _ f hx.2).trans (State.getV_setV_ne s b hx.1))

/-- Register files that read alike are equal. -/
theorem RegFile.ext_get {f g : RegFile} (h : ∀ r, RegFile.get f r = RegFile.get g r) : f = g := by
  refine Vector.ext fun k hk => ?_
  have := h (BitVec.ofNat 4 k)
  simpa [RegFile.get, Nat.mod_eq_of_lt hk] using this

@[simp] theorem State.getV_setRegs (s : State) (f : RegFile) (r : RegIdx) : (s.setRegs f).getV r = RegFile.get f r := rfl

@[simp] theorem RegFile.length_prefixBytes (f : RegFile) (count : Nat) : (RegFile.prefixBytes f count).length = count := by
  simp [RegFile.prefixBytes]

@[simp] theorem RegFile.getElem_prefixBytes (f : RegFile) (count k : Nat) (h : k < (RegFile.prefixBytes f count).length) :
    (RegFile.prefixBytes f count)[k] = RegFile.get f (BitVec.ofNat 4 k) := by
  simp [RegFile.prefixBytes]

/-- Loading registers from bytes: register `j` gets byte `j - k`, and those outside the run keep their value. -/
theorem RegFile.get_putBytes (f : RegFile) (k : Nat) (bytes : List Byte) (h : k + bytes.length ≤ 16) (r : RegIdx) :
    RegFile.get (RegFile.putBytes f k bytes) r =
      if hr : k ≤ r.toNat ∧ r.toNat < k + bytes.length then bytes[r.toNat - k] else RegFile.get f r := by
  induction bytes generalizing f k with
  | nil =>
    unfold RegFile.putBytes
    simp only [List.length_nil, Nat.add_zero]
    rw [dif_neg (by omega)]
  | cons b rest ih =>
    simp only [List.length_cons] at h ⊢
    unfold RegFile.putBytes
    rw [ih _ _ (by omega), RegFile.get_put]
    have hk : (BitVec.ofNat 4 k).toNat = k := by simp; omega
    by_cases hr : r = BitVec.ofNat 4 k
    · subst hr
      rw [dif_neg (by omega), if_pos rfl, dif_pos (by omega)]
      simp [hk]
    · have hne : r.toNat ≠ k := fun e => hr (BitVec.eq_of_toNat_eq (by omega))
      rw [if_neg hr]
      by_cases hin : k + 1 ≤ r.toNat ∧ r.toNat < k + 1 + rest.length
      · rw [dif_pos hin, dif_pos (by omega)]
        have : r.toNat - k = (r.toNat - (k + 1)) + 1 := by omega
        simp [this]
      · rw [dif_neg hin, dif_neg (by omega)]

/-! ### Flags -/

@[simp] theorem flagByte_true : flagByte true = 1 := rfl
@[simp] theorem flagByte_false : flagByte false = 0 := rfl

/-- A flag is 0 or 1 (R22 (e)). -/
theorem flagByte_cases (c : Bool) : flagByte c = 0 ∨ flagByte c = 1 := by cases c <;> simp

theorem flagByte_eq_one {c : Bool} : flagByte c = 1 ↔ c = true := by cases c <;> simp

/-! ### The parameters' values on this hardware (R6) -/

@[simp] theorem shiftOperand_hardware (s : State) (x y : RegIdx) : shiftOperand Params.shiftUsesVy s x y = s.getV x := rfl
@[simp] theorem jumpOffset_hardware (s : State) (nnn : Addr12) : jumpOffset Params.jumpUsesVx s nnn = s.getV 0 := rfl
@[simp] theorem indexAfter_hardware (i : Word) (c : Nat) : indexAfter Params.memIncrementsI i c = i := rfl
@[simp] theorem stackFull_hardware (l : List Word) : stackFull Params.stackDepth l = false := rfl

/-- `count` on this hardware (R196). -/
theorem countRegs_hardware (x : RegIdx) :
    countRegs Params.memInclusive x = if x.toNat = 0 then 1 else x.toNat := rfl

/-- Dump and load move 1 to 15 registers (R196). -/
theorem countRegs_bounds (x : RegIdx) :
    0 < countRegs Params.memInclusive x ∧ countRegs Params.memInclusive x ≤ 15 := by
  have := x.isLt
  rw [countRegs_hardware]
  split <;> omega

end Sys2Proof.Machine
end

