-- ==== Sys2Proof/Laws/Display.lean ====
section
/-! SUPPORT. Drawing: which pixels a sprite names, that it names none twice, and what toggling a list of pixels does. -/

namespace Sys2Proof.Machine

theorem mem_rowColumns {b : Byte} {col : Nat} : col ∈ rowColumns b ↔ col < 8 ∧ b.getLsbD (7 - col) = true := by
  simp [rowColumns]

/-- The pixels of a sprite: one per set bit of a row byte, wrapped on its own (R211 to R213). -/
theorem mem_spritePixels {vx vy : Byte} {rows : List Byte} {r c : Nat} :
    (r, c) ∈ spritePixels vx vy rows ↔
      ∃ row col, ∃ h : row < rows.length, col < 8 ∧ (rows[row]).getLsbD (7 - col) = true ∧
        r = (vy.toNat + row) % 32 ∧ c = (vx.toNat + col) % 64 := by
  unfold spritePixels
  rw [List.mem_flatMap]
  constructor
  · rintro ⟨⟨b, row⟩, hb, hp⟩
    obtain ⟨col, hcol, hrc⟩ := List.mem_map.1 hp
    obtain ⟨hlt, hbit⟩ := mem_rowColumns.1 hcol
    obtain ⟨hrow, hb'⟩ := List.mk_mem_zipIdx_iff_getElem?.1 hb |> List.getElem?_eq_some_iff.1
    cases hrc
    exact ⟨row, col, hrow, hlt, by rw [hb']; exact hbit, rfl, rfl⟩
  · rintro ⟨row, col, hrow, hlt, hbit, rfl, rfl⟩
    refine ⟨(rows[row], row), ?_, List.mem_map.2 ⟨col, mem_rowColumns.2 ⟨hlt, hbit⟩, rfl⟩⟩
    rw [List.mk_mem_zipIdx_iff_getElem?]
    exact List.getElem?_eq_getElem hrow

/-- Within one draw no pixel is toggled twice: at most 32 rows and 8 columns (R215 (b)). -/
theorem nodup_spritePixels (vx vy : Byte) (rows : List Byte) (h : rows.length ≤ 32) :
    (spritePixels vx vy rows).Nodup := by
  unfold spritePixels
  rw [List.nodup_flatMap]
  constructor
  · rintro ⟨b, row⟩ _
    refine List.Nodup.map_on ?_ ((List.nodup_range).filter _)
    intro c hc c' hc' e
    have := (mem_rowColumns.1 hc).1
    have := (mem_rowColumns.1 hc').1
    have := (Prod.mk.inj e).2
    omega
  · have hp : rows.zipIdx.Pairwise fun p q => p.2 < q.2 ∧ q.2 < 32 := by
      rw [List.pairwise_iff_getElem]
      intro i j hi hj hij
      simp only [List.length_zipIdx] at hi hj
      simp only [List.getElem_zipIdx]
      omega
    refine hp.imp ?_
    rintro ⟨b, row⟩ ⟨b', row'⟩ ⟨hlt, hlt'⟩
    rw [Function.onFun, List.disjoint_left]
    rintro ⟨r, c⟩ hm hm'
    obtain ⟨col, _, e⟩ := List.mem_map.1 hm
    obtain ⟨col', _, e'⟩ := List.mem_map.1 hm'
    have h1 := (Prod.mk.inj e).1
    have h2 := (Prod.mk.inj e').1
    simp only at hlt hlt'
    omega

/-- Toggling a list of pixels, each on the screen and none twice: exactly those change, and the collision is that one of them
was on, or that there was one before (R211, R214). -/
theorem togglePixels_spec (ps : List (Nat × Nat)) (fb : Framebuffer) (collision : Bool) (hn : ps.Nodup)
    (hb : ∀ p ∈ ps, p.1 < 32 ∧ p.2 < 64) :
    (∀ r c, r < 32 → c < 64 → Framebuffer.pixel (togglePixels ps fb collision).1 r c =
      (Framebuffer.pixel fb r c ^^ decide ((r, c) ∈ ps))) ∧
    ((togglePixels ps fb collision).2 = true ↔
      collision = true ∨ ∃ r c, (r, c) ∈ ps ∧ Framebuffer.pixel fb r c = true) := by
  induction ps generalizing fb collision with
  | nil => simp [togglePixels]
  | cons p ps ih =>
    obtain ⟨r0, c0⟩ := p
    have hp := hb (r0, c0) (by simp)
    simp only at hp
    have hnd := List.nodup_cons.1 hn
    obtain ⟨h1, h2⟩ := ih (fb.toggle r0 c0) (collision || fb.pixel r0 c0) hnd.2 fun q hq => hb q (by simp [hq])
    have hsame : ∀ r c, (r, c) ∈ ps → Framebuffer.pixel (fb.toggle r0 c0) r c = Framebuffer.pixel fb r c := by
      intro r c hm
      have hrc := hb (r, c) (by simp [hm])
      simp only at hrc
      rw [Framebuffer.pixel_toggle]
      have : ¬ (r % 32 = r0 % 32 ∧ c % 64 = c0 % 64) := by
        rintro ⟨e1, e2⟩
        have e1' : r = r0 := by omega
        have e2' : c = c0 := by omega
        subst e1' e2'
        exact hnd.1 hm
      simp [this]
    constructor
    · intro r c hr hc
      unfold togglePixels
      rw [h1 r c hr hc, Framebuffer.pixel_toggle]
      by_cases he : r = r0 ∧ c = c0
      · obtain ⟨rfl, rfl⟩ := he
        simp [hnd.1]
      · have : ¬ (r % 32 = r0 % 32 ∧ c % 64 = c0 % 64) := fun e => he ⟨by omega, by omega⟩
        have h' : (r, c) ≠ (r0, c0) := fun e => he (Prod.mk.inj e)
        simp [this, h']
    · unfold togglePixels
      rw [h2, Bool.or_eq_true]
      constructor
      · rintro ((h | h) | ⟨r, c, hm, h⟩)
        · exact .inl h
        · exact .inr ⟨r0, c0, by simp, h⟩
        · exact .inr ⟨r, c, by simp [hm], by rw [← hsame r c hm]; exact h⟩
      · rintro (h | ⟨r, c, hm, h⟩)
        · exact .inl (.inl h)
        · rcases List.mem_cons.1 hm with e | hm
          · cases e; exact .inl (.inr h)
          · exact .inr ⟨r, c, hm, by rw [hsame r c hm]; exact h⟩

/-- What a sprite covers, in terms of the pixels it toggles (R211 to R213). -/
theorem spriteCovers_iff {s : State} {vx vy : Byte} {n r c : Nat} :
    SpriteCovers s vx vy n r c ↔ (r, c) ∈ spritePixels vx vy (s.mem.readBytes s.i.toNat n) := by
  rw [mem_spritePixels]
  constructor
  · rintro ⟨row, col, h1, h2, h3, h4, h5⟩
    exact ⟨row, col, by simpa using h1, h2, by simpa using h3, h4, h5⟩
  · rintro ⟨row, col, h1, h2, h3, h4, h5⟩
    exact ⟨row, col, by simpa using h1, h2, by simpa using h3, h4, h5⟩

end Sys2Proof.Machine
end

