-- ==== Sys2Proof/Laws/Exec.lean ====
section
/-! SUPPORT. What each shared operation answers, said once, and what `exec` is for each instruction on this hardware: the lemmas to cite instead of unfolding a meaning. -/

namespace Sys2Proof.Machine

/-! ### The shared operations -/

theorem skipWhen_eq (c : Bool) (s : State) : skipWhen c s = .next (s.setPc (if c then s.pc + 2 else s.pc)) := by
  rw [skipWhen, State.skipIf_eq]

theorem storeAtIndex_inRange {bytes : List Byte} {w : Word} {s : State} (h : inRange s.indexBase bytes.length = true) :
    storeAtIndex bytes w s = .next ((s.setMem (s.mem.writeBytes s.i.toNat bytes)).setI w) := by
  rw [storeAtIndex, if_pos h]
  rfl

theorem storeAtIndex_outOfRange {bytes : List Byte} {w : Word} {s : State} (h : inRange s.indexBase bytes.length = false) :
    storeAtIndex bytes w s = .next s.raiseDataRange := by
  rw [storeAtIndex, if_neg (by simp [h])]

/-- Everything a store through `I` can do: its bytes at `I` and up, or the fatal condition. -/
theorem storeAtIndex_cases {bytes : List Byte} {w : Word} {s t : State} (h : storeAtIndex bytes w s = .next t) :
    (inRange s.i.toNat bytes.length = true ∧ t = (s.setMem (s.mem.writeBytes s.i.toNat bytes)).setI w) ∨
    (inRange s.i.toNat bytes.length = false ∧ t = s.raiseDataRange) := by
  cases hr : inRange s.indexBase bytes.length with
  | true =>
    rw [storeAtIndex_inRange hr] at h
    cases h
    exact .inl ⟨hr, rfl⟩
  | false =>
    rw [storeAtIndex_outOfRange hr] at h
    cases h
    exact .inr ⟨hr, rfl⟩

theorem loadRegs_inRange {b : Bool} {count : Nat} {s : State} (h : inRange s.indexBase count = true) :
    loadRegs b count s = .next ((s.setRegs (RegFile.putBytes s.v 0 (s.mem.readBytes s.i.toNat count))).setI
      (indexAfter b s.i count)) := by
  rw [loadRegs, if_pos h]
  rfl

theorem loadRegs_outOfRange {b : Bool} {count : Nat} {s : State} (h : inRange s.indexBase count = false) :
    loadRegs b count s = .next s.raiseDataRange := by
  rw [loadRegs, if_neg (by simp [h])]

/-- Everything a register load can do. -/
theorem loadRegs_cases {b : Bool} {count : Nat} {s t : State} (h : loadRegs b count s = .next t) :
    (inRange s.i.toNat count = true ∧
      t = (s.setRegs (RegFile.putBytes s.v 0 (s.mem.readBytes s.i.toNat count))).setI (indexAfter b s.i count)) ∨
    (inRange s.i.toNat count = false ∧ t = s.raiseDataRange) := by
  cases hr : inRange s.indexBase count with
  | true =>
    rw [loadRegs_inRange hr] at h
    cases h
    exact .inl ⟨hr, rfl⟩
  | false =>
    rw [loadRegs_outOfRange hr] at h
    cases h
    exact .inr ⟨hr, rfl⟩

/-- Everything a key skip can do. -/
theorem skipOnKey_cases {wanted : Bool} {x : RegIdx} {s t : State} (h : skipOnKey wanted x s = .next t) :
    (15 < (s.getV x).toNat ∧ t = s.raise (.keyIndex s.instrAddr (s.getV x))) ∨
    ((s.getV x).toNat ≤ 15 ∧
      t = s.setPc (if s.keyDown ((s.getV x).setWidth 4) == wanted then s.pc + 2 else s.pc)) := by
  unfold skipOnKey at h
  split at h
  · next hk => cases h; exact .inl ⟨hk, rfl⟩
  · next hk =>
    rw [skipWhen_eq] at h
    cases h
    exact .inr ⟨by omega, rfl⟩

/-- Everything a draw can do. -/
theorem execDrw_cases {x y : RegIdx} {n : Nibble} {s t : State} (h : execDrw x y n s = .next t) :
    (inRange s.i.toNat n.toNat = true ∧
      t = drawRows (s.getV x) (s.getV y) (s.mem.readBytes s.i.toNat n.toNat) s) ∨
    (inRange s.i.toNat n.toNat = false ∧ t = s.raiseDataRange) := by
  unfold execDrw at h
  split at h
  · next hr => cases h; exact .inl ⟨hr, rfl⟩
  · next hr => cases h; exact .inr ⟨Bool.eq_false_of_not_eq_true hr, rfl⟩

/-- Everything RET can do. -/
theorem execRet_cases {z : Nibble} {s t : State} (h : execRet z s = .next t) :
    (s.stack = [] ∧ t = s.raise (.stackUnderflow s.instrAddr)) ∨
    (∃ l w, s.stack = l ++ [w] ∧ t = (s.setStack l).setPc w) := by
  unfold execRet at h
  rcases List.eq_nil_or_concat s.stack with hs | ⟨l, w, hs⟩
  · rw [State.pop_nil s hs] at h
    cases h
    exact .inl ⟨hs, rfl⟩
  · rw [List.concat_eq_append] at hs
    rw [State.pop_concat s l w hs] at h
    cases h
    exact .inr ⟨l, w, hs, rfl⟩

/-! ### `exec`, instruction by instruction -/

theorem exec_cls (z : Nibble) (s : State) : exec (.cls z) s = .next (s.setFb Framebuffer.clear) := rfl
theorem exec_jp (nnn : Addr12) (s : State) : exec (.jp nnn) s = .next (s.setPc (zext12 nnn)) := rfl
theorem exec_call (nnn : Addr12) (s : State) :
    exec (.call nnn) s = .next ((s.setStack (s.stack ++ [s.pc])).setPc (zext12 nnn)) := rfl
theorem exec_seImm (x : RegIdx) (nn : Byte) (s : State) :
    exec (.seImm x nn) s = .next (s.setPc (if s.getV x == nn then s.pc + 2 else s.pc)) := skipWhen_eq _ s
theorem exec_sneImm (x : RegIdx) (nn : Byte) (s : State) :
    exec (.sneImm x nn) s = .next (s.setPc (if s.getV x != nn then s.pc + 2 else s.pc)) := skipWhen_eq _ s
theorem exec_seReg (x y : RegIdx) (z : Nibble) (s : State) :
    exec (.seReg x y z) s = .next (s.setPc (if s.getV x == s.getV y then s.pc + 2 else s.pc)) := skipWhen_eq _ s
theorem exec_sneReg (x y : RegIdx) (z : Nibble) (s : State) :
    exec (.sneReg x y z) s = .next (s.setPc (if s.getV x != s.getV y then s.pc + 2 else s.pc)) := skipWhen_eq _ s
theorem exec_jpV0 (nnn : Addr12) (s : State) :
    exec (.jpV0 nnn) s = .next (s.setPc (zext12 nnn + zext8 (s.getV 0))) := rfl
theorem exec_ldImm (x : RegIdx) (nn : Byte) (s : State) : exec (.ldImm x nn) s = .next (s.setV x nn) := rfl
theorem exec_addImm (x : RegIdx) (nn : Byte) (s : State) : exec (.addImm x nn) s = .next (s.setV x (s.getV x + nn)) := rfl
theorem exec_ldReg (x y : RegIdx) (s : State) : exec (.ldReg x y) s = .next (s.setV x (s.getV y)) := rfl
theorem exec_orReg (x y : RegIdx) (s : State) : exec (.orReg x y) s = .next (s.setV x (s.getV x ||| s.getV y)) := rfl
theorem exec_andReg (x y : RegIdx) (s : State) : exec (.andReg x y) s = .next (s.setV x (s.getV x &&& s.getV y)) := rfl
theorem exec_xorReg (x y : RegIdx) (s : State) : exec (.xorReg x y) s = .next (s.setV x (s.getV x ^^^ s.getV y)) := rfl
theorem exec_addReg (x y : RegIdx) (s : State) :
    exec (.addReg x y) s = .next (s.setVFlag x (s.getV x + s.getV y) (carryFlag (s.getV x) (s.getV y))) := rfl
theorem exec_sub (x y : RegIdx) (s : State) :
    exec (.sub x y) s = .next (s.setVFlag x (s.getV x - s.getV y) (notBorrowFlag (s.getV x) (s.getV y))) := rfl
theorem exec_shr (x y : RegIdx) (s : State) :
    exec (.shr x y) s = .next (s.setVFlag x (s.getV x >>> 1) (shrFlag (s.getV x))) := rfl
theorem exec_subn (x y : RegIdx) (s : State) :
    exec (.subn x y) s = .next (s.setVFlag x (s.getV y - s.getV x) (notBorrowFlag (s.getV y) (s.getV x))) := rfl
theorem exec_shl (x y : RegIdx) (s : State) :
    exec (.shl x y) s = .next (s.setVFlag x (s.getV x <<< 1) (shlFlag (s.getV x))) := rfl
theorem exec_ldI (nnn : Addr12) (s : State) : exec (.ldI nnn) s = .next (s.setI (zext12 nnn)) := rfl
theorem exec_rnd (x : RegIdx) (nn : Byte) (s : State) :
    exec (.rnd x nn) s = .next (s.consumeDraw.setV x (Config.randomByte s.draws &&& nn)) := rfl
theorem exec_ldVxDt (x : RegIdx) (s : State) : exec (.ldVxDt x) s = .next (s.setV x s.dt) := rfl
theorem exec_ldDtVx (x : RegIdx) (s : State) : exec (.ldDtVx x) s = .next (s.setDt (s.getV x)) := rfl
theorem exec_ldStVx (x : RegIdx) (s : State) : exec (.ldStVx x) s = .next (s.setSt (s.getV x)) := rfl
theorem exec_addI (x : RegIdx) (s : State) :
    exec (.addI x) s = .next ((s.setI (s.i + zext8 (s.getV x))).setV vfIdx (crossFlag s.i (s.i + zext8 (s.getV x)))) := rfl
theorem exec_ldF (x : RegIdx) (s : State) : exec (.ldF x) s = .next (s.setI (zext8 (s.getV x) * 5)) := rfl
theorem exec_ldB (x : RegIdx) (s : State) : exec (.ldB x) s = storeAtIndex (decimalDigits (s.getV x)) s.i s := rfl
theorem exec_ldMemVx (x : RegIdx) (s : State) :
    exec (.ldMemVx x) s = storeAtIndex (RegFile.prefixBytes s.v (countRegs Params.memInclusive x)) s.i s := rfl
theorem exec_ldVxMem (x : RegIdx) (s : State) :
    exec (.ldVxMem x) s = loadRegs Params.memIncrementsI (countRegs Params.memInclusive x) s := rfl
theorem exec_ret (z : Nibble) (s : State) : exec (.ret z) s = execRet z s := rfl
theorem exec_drw (x y : RegIdx) (n : Nibble) (s : State) : exec (.drw x y n) s = execDrw x y n s := rfl
theorem exec_skp (x : RegIdx) (s : State) : exec (.skp x) s = skipOnKey true x s := rfl
theorem exec_sknp (x : RegIdx) (s : State) : exec (.sknp x) s = skipOnKey false x s := rfl
theorem exec_ldVxK_latched (x : RegIdx) (s : State) (h : s.latch.valid = true) :
    exec (.ldVxK x) s = .next ((s.setV x (zext4 s.latch.key)).setLatch ⟨false, s.latch.key⟩) := by
  change execLdVxK x s = _
  rw [execLdVxK, if_pos h]
  rfl
theorem exec_ldVxK_waiting (x : RegIdx) (s : State) (h : s.latch.valid = false) :
    exec (.ldVxK x) s = .next (s.setPc (s.pc - 2)) := by
  change execLdVxK x s = _
  rw [execLdVxK, if_neg (by simp [h])]
  rfl

/-! ### Widenings as numbers -/

@[simp] theorem toNat_zext12 (nnn : Addr12) : (zext12 nnn).toNat = nnn.toNat := by
  have := nnn.isLt
  simp [zext12]
  omega

@[simp] theorem toNat_zext8 (b : Byte) : (zext8 b).toNat = b.toNat := by
  have := b.isLt
  simp [zext8]
  omega

@[simp] theorem toNat_zext4 (k : Nibble) : (zext4 k).toNat = k.toNat := by
  have := k.isLt
  simp [zext4]
  omega

end Sys2Proof.Machine
end

