-- ==== Sys2Proof/Laws/Events.lean ====
section
/-! SUPPORT. The fetch, the cycle step, the events and the step: what each answers, said once. -/

namespace Sys2Proof.Machine

theorem State.halted_iff (s : State) : s.halted = true ↔ s.halt ≠ none := by
  unfold State.halted
  cases s.halt <;> simp

theorem State.halted_eq_false (s : State) : s.halted = false ↔ s.halt = none := by
  unfold State.halted
  cases s.halt <;> simp

/-- A fetch inside memory (R68, R121). -/
theorem State.fetchWord_of_le (s : State) (h : s.pc.toNat ≤ 4094) :
    s.fetchWord = some (wordOfBytes (Memory.read s.mem s.pc.toNat) (Memory.read s.mem (s.pc.toNat + 1))) := by
  rw [State.fetchWord, State.memRead16, if_pos ((inRange_iff (by omega)).2 (by omega))]

/-- A fetch that leaves memory (R121). -/
theorem State.fetchWord_of_gt (s : State) (h : 4094 < s.pc.toNat) : s.fetchWord = none := by
  have : inRange s.pc.toNat 2 = false := (not_inRange_iff (by omega)).2 (by omega)
  rw [State.fetchWord, State.memRead16, if_neg (by simp [this])]

/-- Everything a cycle step can do (R120): nothing when halted, the fetch's fatal condition, a handler, or a report. -/
theorem cycleStep_cases {s t : State} (h : cycleStep s = .next t) :
    (s.halt ≠ none ∧ t = s) ∨
    (s.halt = none ∧ 4094 < s.pc.toNat ∧ t = s.raise (.addrRangeFetch s.pc)) ∨
    (s.halt = none ∧ s.pc.toNat ≤ 4094 ∧ ∃ w, s.fetchWord = some w ∧
      ((∃ i, decode w = .ok i ∧ exec i (s.setPc (s.pc + 2)) = .next t) ∨
       (∃ u, decode w = .error u ∧ t = (s.setPc (s.pc + 2)).note (.unknown s.pc w)))) := by
  unfold cycleStep at h
  by_cases hh : s.halted = true
  · rw [if_pos hh] at h
    cases h
    exact .inl ⟨(State.halted_iff s).1 hh, rfl⟩
  · rw [if_neg hh] at h
    have hn : s.halt = none := (State.halted_eq_false s).1 (Bool.eq_false_of_not_eq_true hh)
    by_cases hp : s.pc.toNat ≤ 4094
    · rw [State.fetchWord_of_le s hp] at h
      refine .inr (.inr ⟨hn, hp, _, State.fetchWord_of_le s hp, ?_⟩)
      simp only [runWord] at h
      split at h
      · next i hi => exact .inl ⟨i, hi, h⟩
      · next u hu => cases h; exact .inr ⟨u, hu, rfl⟩
    · rw [State.fetchWord_of_gt s (by omega)] at h
      cases h
      exact .inr (.inl ⟨hn, by omega, rfl⟩)

/-- Everything a step can do: the cycle step, or the host's next event on the state without it (R35). -/
theorem step_cases {s : State} {o : Host.Outcome State Fault Refusal} (h : step s = o) :
    (s.schedule = [] ∧ cycleStep s = o) ∨
    (∃ e rest, s.schedule = e :: rest ∧ applyEvent e (s.setSchedule rest) = o) := by
  change nextEvent s = o at h
  unfold nextEvent at h
  cases hs : s.schedule with
  | nil => rw [hs] at h; exact .inl ⟨rfl, h⟩
  | cons e rest => rw [hs] at h; exact .inr ⟨e, rest, rfl, h⟩

theorem step_of_nil {s : State} (h : s.schedule = []) : step s = cycleStep s := by
  change nextEvent s = _
  rw [nextEvent, h]

theorem step_of_cons {s : State} {e : Event} {rest : List Event} (h : s.schedule = e :: rest) :
    step s = applyEvent e (s.setSchedule rest) := by
  change nextEvent s = _
  rw [nextEvent, h]

/-- A timer step of a machine that is not halted (R264). -/
theorem timerStep_of_running {s : State} (h : s.halt = none) :
    timerStep s = (s.setDt (countDown s.dt)).setSt (countDown s.st) := by
  rw [timerStep, if_neg (by simp [(State.halted_eq_false s).2 h])]

/-- One timer's decrement as a number (R264, R265). -/
theorem toNat_countDown (b : Byte) : (countDown b).toNat = b.toNat - 1 := by
  unfold countDown
  split
  · next h => simp [h]
  · next h =>
    have : b.toNat ≠ 0 := fun e => h (BitVec.eq_of_toNat_eq (by simpa using e))
    have := b.isLt
    rw [BitVec.toNat_sub]
    simp
    omega

/-- The two outcomes of a load into a machine in its reset state (R80). -/
theorem State.loadEvent_of_atReset {s : State} {bytes : List Byte} (h : s.atReset = true) :
    s.loadEvent bytes = if bytes.length ≤ 3584 then .next (s.setMem (s.mem.writeBytes 0x200 bytes))
      else .next (s.note .loadTooLarge) := by
  rw [State.loadEvent, if_pos h, State.loadProgram]
  by_cases hl : bytes.length ≤ 3584
  · have : imageFits bytes = true := by
      unfold imageFits
      rw [decide_eq_true_iff]
      unfold Config.loadBase Config.memSize
      omega
    rw [if_pos this, if_pos hl]
    rfl
  · have : imageFits bytes = false := by
      unfold imageFits
      rw [decide_eq_false_iff_not]
      unfold Config.loadBase Config.memSize
      omega
    rw [if_neg (by simp [this]), if_neg hl]

end Sys2Proof.Machine
end

