-- ==== Sys2Proof/Laws/Fields.lean ====
section
/-! SUPPORT. The fields of a word and the words of the formats, as numbers: what decoding and encoding proofs rest on. -/

namespace Sys2Proof

/-! ### Fields and words as numbers -/

theorem toNat_opField (w : Word) : (opField w).toNat = w.toNat / 4096 := by
  have := w.isLt
  simp only [opField, BitVec.extractLsb'_toNat, Nat.shiftRight_eq_div_pow]
  omega

theorem toNat_xField (w : Word) : (xField w).toNat = w.toNat / 256 % 16 := by
  simp [xField, BitVec.extractLsb'_toNat, Nat.shiftRight_eq_div_pow]

theorem toNat_yField (w : Word) : (yField w).toNat = w.toNat / 16 % 16 := by
  simp [yField, BitVec.extractLsb'_toNat, Nat.shiftRight_eq_div_pow]

theorem toNat_nField (w : Word) : (nField w).toNat = w.toNat % 16 := by
  simp [nField, BitVec.extractLsb'_toNat]

theorem toNat_nnField (w : Word) : (nnField w).toNat = w.toNat % 256 := by
  simp [nnField, BitVec.extractLsb'_toNat]

theorem toNat_nnnField (w : Word) : (nnnField w).toNat = w.toNat % 4096 := by
  simp [nnnField, BitVec.extractLsb'_toNat]

/-- Concatenation as a number. -/
theorem toNat_concat {m n : Nat} (a : BitVec m) (b : BitVec n) : (a ++ b).toNat = a.toNat * 2 ^ n + b.toNat := by
  rw [BitVec.toNat_append, ← Nat.shiftLeft_add_eq_or_of_lt b.isLt, Nat.shiftLeft_eq]

theorem toNat_encodeNNN (op : Nibble) (nnn : Addr12) : (encodeNNN op nnn).toNat = op.toNat * 4096 + nnn.toNat :=
  toNat_concat op nnn

theorem toNat_encodeXNN (op x : Nibble) (nn : Byte) :
    (encodeXNN op x nn).toNat = op.toNat * 4096 + x.toNat * 256 + nn.toNat := by
  have h : (encodeXNN op x nn).toNat = op.toNat * 4096 + (x ++ nn).toNat := toNat_concat op (x ++ nn)
  have h' : (x ++ nn).toNat = x.toNat * 256 + nn.toNat := toNat_concat x nn
  rw [h, h', Nat.add_assoc]

theorem toNat_encodeXYN (op x y n : Nibble) :
    (encodeXYN op x y n).toNat = op.toNat * 4096 + x.toNat * 256 + y.toNat * 16 + n.toNat := by
  have h : (encodeXYN op x y n).toNat = op.toNat * 4096 + (x ++ (y ++ n)).toNat := toNat_concat op (x ++ (y ++ n))
  have h' : (x ++ (y ++ n)).toNat = x.toNat * 256 + (y ++ n).toNat := toNat_concat x (y ++ n)
  have h'' : (y ++ n).toNat = y.toNat * 16 + n.toNat := toNat_concat y n
  rw [h, h', h'', Nat.add_assoc, Nat.add_assoc]

theorem toNat_wordOfBytes (hi lo : Byte) : (wordOfBytes hi lo).toNat = hi.toNat * 256 + lo.toNat :=
  toNat_concat hi lo

/-! ### Fields of the formats (R92) -/

@[simp] theorem opField_encodeNNN (op : Nibble) (nnn : Addr12) : opField (encodeNNN op nnn) = op := by
  apply BitVec.eq_of_toNat_eq
  rw [toNat_opField, toNat_encodeNNN]
  have := nnn.isLt
  omega

@[simp] theorem nnnField_encodeNNN (op : Nibble) (nnn : Addr12) : nnnField (encodeNNN op nnn) = nnn := by
  apply BitVec.eq_of_toNat_eq
  rw [toNat_nnnField, toNat_encodeNNN]
  have := nnn.isLt
  omega

@[simp] theorem opField_encodeXNN (op x : Nibble) (nn : Byte) : opField (encodeXNN op x nn) = op := by
  apply BitVec.eq_of_toNat_eq
  rw [toNat_opField, toNat_encodeXNN]
  have := nn.isLt
  have := x.isLt
  omega

@[simp] theorem xField_encodeXNN (op x : Nibble) (nn : Byte) : xField (encodeXNN op x nn) = x := by
  apply BitVec.eq_of_toNat_eq
  rw [toNat_xField, toNat_encodeXNN]
  have := nn.isLt
  have := x.isLt
  omega

@[simp] theorem nnField_encodeXNN (op x : Nibble) (nn : Byte) : nnField (encodeXNN op x nn) = nn := by
  apply BitVec.eq_of_toNat_eq
  rw [toNat_nnField, toNat_encodeXNN]
  have := nn.isLt
  omega

@[simp] theorem opField_encodeXYN (op x y n : Nibble) : opField (encodeXYN op x y n) = op := by
  apply BitVec.eq_of_toNat_eq
  rw [toNat_opField, toNat_encodeXYN]
  have := x.isLt
  have := y.isLt
  have := n.isLt
  omega

@[simp] theorem xField_encodeXYN (op x y n : Nibble) : xField (encodeXYN op x y n) = x := by
  apply BitVec.eq_of_toNat_eq
  rw [toNat_xField, toNat_encodeXYN]
  have := x.isLt
  have := y.isLt
  have := n.isLt
  omega

@[simp] theorem yField_encodeXYN (op x y n : Nibble) : yField (encodeXYN op x y n) = y := by
  apply BitVec.eq_of_toNat_eq
  rw [toNat_yField, toNat_encodeXYN]
  have := y.isLt
  have := n.isLt
  omega

@[simp] theorem nField_encodeXYN (op x y n : Nibble) : nField (encodeXYN op x y n) = n := by
  apply BitVec.eq_of_toNat_eq
  rw [toNat_nField, toNat_encodeXYN]
  have := n.isLt
  omega

/-! ### A word from its fields (R91) -/

theorem encodeNNN_fields (w : Word) : encodeNNN (opField w) (nnnField w) = w := by
  apply BitVec.eq_of_toNat_eq
  rw [toNat_encodeNNN, toNat_opField, toNat_nnnField]
  omega

theorem encodeXNN_fields (w : Word) : encodeXNN (opField w) (xField w) (nnField w) = w := by
  apply BitVec.eq_of_toNat_eq
  rw [toNat_encodeXNN, toNat_opField, toNat_xField, toNat_nnField]
  omega

theorem encodeXYN_fields (w : Word) : encodeXYN (opField w) (xField w) (yField w) (nField w) = w := by
  apply BitVec.eq_of_toNat_eq
  rw [toNat_encodeXYN, toNat_opField, toNat_xField, toNat_yField, toNat_nField]
  omega

/-! ### The three masks of the opcode table -/

theorem and_mask_op (w : Word) : w &&& 0xF000 = encodeNNN (opField w) 0 := by
  apply BitVec.eq_of_getLsbD_eq
  intro i hi
  simp only [encodeNNN, opField, BitVec.getLsbD_and, BitVec.getLsbD_append, BitVec.getLsbD_extractLsb']
  interval_cases i <;> simp

theorem and_mask_opNN (w : Word) : w &&& 0xF0FF = encodeXNN (opField w) 0 (nnField w) := by
  apply BitVec.eq_of_getLsbD_eq
  intro i hi
  simp only [encodeXNN, opField, nnField, BitVec.getLsbD_and, BitVec.getLsbD_append, BitVec.getLsbD_extractLsb']
  interval_cases i <;> simp

theorem and_mask_opN (w : Word) : w &&& 0xF00F = encodeXYN (opField w) 0 0 (nField w) := by
  apply BitVec.eq_of_getLsbD_eq
  intro i hi
  simp only [encodeXYN, opField, nField, BitVec.getLsbD_and, BitVec.getLsbD_append, BitVec.getLsbD_extractLsb']
  interval_cases i <;> simp

end Sys2Proof
end

