-- ==== Sys2Proof/Laws/PerInstr.lean ====
section
/-! SUPPORT. Statements about every instruction as syntax, one lemma per constructor (LAWS.json, "per_instruction"). -/

namespace Sys2Proof.Laws.TableRow

/-- The word an instruction encodes to is a word of the instruction's row of spec/opcode_table.json: `w AND mask = match`. -/
def Statement (i : Instr) : Prop := i.row.matchesWord (encode i) = true

theorem matches_op {w p : Word} (h : encodeNNN (opField w) 0 = p) : OpcodeRow.matchesWord ⟨0xF000, p⟩ w = true := by
  unfold OpcodeRow.matchesWord
  rw [and_mask_op, h]
  exact beq_self_eq_true p

theorem matches_opNN {w p : Word} (h : encodeXNN (opField w) 0 (nnField w) = p) :
    OpcodeRow.matchesWord ⟨0xF0FF, p⟩ w = true := by
  unfold OpcodeRow.matchesWord
  rw [and_mask_opNN, h]
  exact beq_self_eq_true p

theorem matches_opN {w p : Word} (h : encodeXYN (opField w) 0 0 (nField w) = p) :
    OpcodeRow.matchesWord ⟨0xF00F, p⟩ w = true := by
  unfold OpcodeRow.matchesWord
  rw [and_mask_opN, h]
  exact beq_self_eq_true p

theorem cls (z : Nibble) : Statement (.cls z) := matches_opNN (by simp only [encode, opField_encodeXNN, nnField_encodeXNN]; rfl)
theorem ret (z : Nibble) : Statement (.ret z) := matches_opNN (by simp only [encode, opField_encodeXNN, nnField_encodeXNN]; rfl)
theorem jp (nnn : Addr12) : Statement (.jp nnn) := matches_op (by simp only [encode, opField_encodeNNN]; rfl)
theorem call (nnn : Addr12) : Statement (.call nnn) := matches_op (by simp only [encode, opField_encodeNNN]; rfl)
theorem seImm (x : RegIdx) (nn : Byte) : Statement (.seImm x nn) := matches_op (by simp only [encode, opField_encodeXNN]; rfl)
theorem sneImm (x : RegIdx) (nn : Byte) : Statement (.sneImm x nn) := matches_op (by simp only [encode, opField_encodeXNN]; rfl)
theorem seReg (x : RegIdx) (y : RegIdx) (z : Nibble) : Statement (.seReg x y z) := matches_op (by simp only [encode, opField_encodeXYN]; rfl)
theorem ldImm (x : RegIdx) (nn : Byte) : Statement (.ldImm x nn) := matches_op (by simp only [encode, opField_encodeXNN]; rfl)
theorem addImm (x : RegIdx) (nn : Byte) : Statement (.addImm x nn) := matches_op (by simp only [encode, opField_encodeXNN]; rfl)
theorem ldReg (x : RegIdx) (y : RegIdx) : Statement (.ldReg x y) := matches_opN (by simp only [encode, opField_encodeXYN, nField_encodeXYN]; rfl)
theorem orReg (x : RegIdx) (y : RegIdx) : Statement (.orReg x y) := matches_opN (by simp only [encode, opField_encodeXYN, nField_encodeXYN]; rfl)
theorem andReg (x : RegIdx) (y : RegIdx) : Statement (.andReg x y) := matches_opN (by simp only [encode, opField_encodeXYN, nField_encodeXYN]; rfl)
theorem xorReg (x : RegIdx) (y : RegIdx) : Statement (.xorReg x y) := matches_opN (by simp only [encode, opField_encodeXYN, nField_encodeXYN]; rfl)
theorem addReg (x : RegIdx) (y : RegIdx) : Statement (.addReg x y) := matches_opN (by simp only [encode, opField_encodeXYN, nField_encodeXYN]; rfl)
theorem sub (x : RegIdx) (y : RegIdx) : Statement (.sub x y) := matches_opN (by simp only [encode, opField_encodeXYN, nField_encodeXYN]; rfl)
theorem shr (x : RegIdx) (y : RegIdx) : Statement (.shr x y) := matches_opN (by simp only [encode, opField_encodeXYN, nField_encodeXYN]; rfl)
theorem subn (x : RegIdx) (y : RegIdx) : Statement (.subn x y) := matches_opN (by simp only [encode, opField_encodeXYN, nField_encodeXYN]; rfl)
theorem shl (x : RegIdx) (y : RegIdx) : Statement (.shl x y) := matches_opN (by simp only [encode, opField_encodeXYN, nField_encodeXYN]; rfl)
theorem sneReg (x : RegIdx) (y : RegIdx) (z : Nibble) : Statement (.sneReg x y z) := matches_op (by simp only [encode, opField_encodeXYN]; rfl)
theorem ldI (nnn : Addr12) : Statement (.ldI nnn) := matches_op (by simp only [encode, opField_encodeNNN]; rfl)
theorem jpV0 (nnn : Addr12) : Statement (.jpV0 nnn) := matches_op (by simp only [encode, opField_encodeNNN]; rfl)
theorem rnd (x : RegIdx) (nn : Byte) : Statement (.rnd x nn) := matches_op (by simp only [encode, opField_encodeXNN]; rfl)
theorem drw (x : RegIdx) (y : RegIdx) (n : Nibble) : Statement (.drw x y n) := matches_op (by simp only [encode, opField_encodeXYN]; rfl)
theorem skp (x : RegIdx) : Statement (.skp x) := matches_opNN (by simp only [encode, opField_encodeXNN, nnField_encodeXNN]; rfl)
theorem sknp (x : RegIdx) : Statement (.sknp x) := matches_opNN (by simp only [encode, opField_encodeXNN, nnField_encodeXNN]; rfl)
theorem ldVxDt (x : RegIdx) : Statement (.ldVxDt x) := matches_opNN (by simp only [encode, opField_encodeXNN, nnField_encodeXNN]; rfl)
theorem ldVxK (x : RegIdx) : Statement (.ldVxK x) := matches_opNN (by simp only [encode, opField_encodeXNN, nnField_encodeXNN]; rfl)
theorem ldDtVx (x : RegIdx) : Statement (.ldDtVx x) := matches_opNN (by simp only [encode, opField_encodeXNN, nnField_encodeXNN]; rfl)
theorem ldStVx (x : RegIdx) : Statement (.ldStVx x) := matches_opNN (by simp only [encode, opField_encodeXNN, nnField_encodeXNN]; rfl)
theorem addI (x : RegIdx) : Statement (.addI x) := matches_opNN (by simp only [encode, opField_encodeXNN, nnField_encodeXNN]; rfl)
theorem ldF (x : RegIdx) : Statement (.ldF x) := matches_opNN (by simp only [encode, opField_encodeXNN, nnField_encodeXNN]; rfl)
theorem ldB (x : RegIdx) : Statement (.ldB x) := matches_opNN (by simp only [encode, opField_encodeXNN, nnField_encodeXNN]; rfl)
theorem ldMemVx (x : RegIdx) : Statement (.ldMemVx x) := matches_opNN (by simp only [encode, opField_encodeXNN, nnField_encodeXNN]; rfl)
theorem ldVxMem (x : RegIdx) : Statement (.ldVxMem x) := matches_opNN (by simp only [encode, opField_encodeXNN, nnField_encodeXNN]; rfl)

end Sys2Proof.Laws.TableRow
end

