-- ==== Sys2Proof/Tests/Slice0.lean ====
section
/-! SUPPORT. Tests of the model. Every expected result is from spec/95_test_vectors.md or written out by hand from the rule named; no value is the model's own answer. -/

namespace Sys2Proof.Tests

open Sys2Proof.Machine

/-- The reset state with differences, and `w` at its `pc`: a test vector's start (spec/95_test_vectors.md, conventions). -/
def start (w : Word) (differences : State → State) : State := (differences State.reset).withFetchWord 16 w.toNat

/-- No difference from the reset state. -/
def asReset (s : State) : State := s

/-- The next state of one step, where there is one. -/
def after (s : State) : Option State :=
  match step s with
  | .next t => some t
  | .fault _ => none
  | .refused _ => none

/-- `MEM[a] = b` in a start state. -/
def poke (a : Nat) (bytes : List Byte) (s : State) : State := s.setMem (s.mem.writeBytes a bytes)

/-- `pc` and one register after a step. -/
def pcAndReg (r : RegIdx) (s : State) : Option (Word × Byte) := (after s).map fun t => (t.pc, t.getV r)

/-- The bytes from `a` after a step. -/
def bytesAfter (a n : Nat) (s : State) : Option (List Byte) := (after s).map fun t => t.mem.readBytes a n

/-! ### Well-formedness (canonical encodings; R95, R96, R99) -/

theorem test_wf_cls : Instr.WellFormed (.cls 1) = false := by decide
theorem test_wf_ret : Instr.WellFormed (.ret 0xF) = false := by decide
theorem test_wf_seReg : Instr.WellFormed (.seReg 1 2 1) = false := by decide
theorem test_wf_sneReg : Instr.WellFormed (.sneReg 1 2 0xF) = false := by decide
theorem test_wf_shr : Instr.WellFormed (.shr 1 2) = false := by decide
theorem test_wf_shl : Instr.WellFormed (.shl 1 0xF) = false := by decide
theorem test_wf_canonical : Instr.WellFormed (.cls 0) = true ∧ Instr.WellFormed (.shr 0xF 0) = true := by decide

/-! ### Decoding, one word per constructor from its encoding in R103 -/

theorem test_decode_cls : decode 0x00E0 = .ok (.cls 0) := by decide
theorem test_decode_ret : decode 0x00EE = .ok (.ret 0) := by decide
theorem test_decode_jp : decode 0x1ABC = .ok (.jp 0xABC) := by decide
theorem test_decode_call : decode 0x2210 = .ok (.call 0x210) := by decide
theorem test_decode_seImm : decode 0x3342 = .ok (.seImm 3 0x42) := by decide
theorem test_decode_sneImm : decode 0x4342 = .ok (.sneImm 3 0x42) := by decide
theorem test_decode_seReg : decode 0x5120 = .ok (.seReg 1 2 0) := by decide
theorem test_decode_ldImm : decode 0x6A55 = .ok (.ldImm 0xA 0x55) := by decide
theorem test_decode_addImm : decode 0x7105 = .ok (.addImm 1 0x05) := by decide
theorem test_decode_ldReg : decode 0x8120 = .ok (.ldReg 1 2) := by decide
theorem test_decode_orReg : decode 0x8121 = .ok (.orReg 1 2) := by decide
theorem test_decode_andReg : decode 0x8122 = .ok (.andReg 1 2) := by decide
theorem test_decode_xorReg : decode 0x8123 = .ok (.xorReg 1 2) := by decide
theorem test_decode_addReg : decode 0x8124 = .ok (.addReg 1 2) := by decide
theorem test_decode_sub : decode 0x8125 = .ok (.sub 1 2) := by decide
theorem test_decode_shr : decode 0x8106 = .ok (.shr 1 0) := by decide
theorem test_decode_subn : decode 0x8127 = .ok (.subn 1 2) := by decide
theorem test_decode_shl : decode 0x810E = .ok (.shl 1 0) := by decide
theorem test_decode_sneReg : decode 0x9120 = .ok (.sneReg 1 2 0) := by decide
theorem test_decode_ldI : decode 0xA300 = .ok (.ldI 0x300) := by decide
theorem test_decode_jpV0 : decode 0xBFFF = .ok (.jpV0 0xFFF) := by decide
theorem test_decode_rnd : decode 0xC10F = .ok (.rnd 1 0x0F) := by decide
theorem test_decode_drw : decode 0xD125 = .ok (.drw 1 2 5) := by decide
theorem test_decode_skp : decode 0xE19E = .ok (.skp 1) := by decide
theorem test_decode_sknp : decode 0xE1A1 = .ok (.sknp 1) := by decide
theorem test_decode_ldVxDt : decode 0xF207 = .ok (.ldVxDt 2) := by decide
theorem test_decode_ldVxK : decode 0xF50A = .ok (.ldVxK 5) := by decide
theorem test_decode_ldDtVx : decode 0xF015 = .ok (.ldDtVx 0) := by decide
theorem test_decode_ldStVx : decode 0xF318 = .ok (.ldStVx 3) := by decide
theorem test_decode_addI : decode 0xF11E = .ok (.addI 1) := by decide
theorem test_decode_ldF : decode 0xF529 = .ok (.ldF 5) := by decide
theorem test_decode_ldB : decode 0xF033 = .ok (.ldB 0) := by decide
theorem test_decode_ldMemVx : decode 0xF355 = .ok (.ldMemVx 3) := by decide
theorem test_decode_ldVxMem : decode 0xF265 = .ok (.ldVxMem 2) := by decide

/-- The unknown words of T40.2 to T40.6. -/
theorem test_decode_unknown :
    decode 0x0000 = .error .group0 ∧ decode 0x0123 = .error .group0 ∧ decode 0x8128 = .error .group8 ∧
    decode 0xE100 = .error .groupE ∧ decode 0xF1FF = .error .groupF := by decide

/-- A word through the host's numbering of the opcode table: bit 0 is the least significant bit of the one word. -/
theorem test_decodeTableWord : decodeTableWord 16 0x8AB4 = some (.addReg 0xA 0xB) ∧ decodeTableWord 16 0x00E1 = none := by decide

/-- `withFetchWord` stores the word big-endian at `pc` and touches nothing else (R68). -/
theorem test_withFetchWord : (State.reset.withFetchWord 16 0x1234).mem = [(0x200, 0x12), (0x201, 0x34)] := by decide

/-! ### One step of each instruction, from the vectors named -/

/-- T40.7: a non-canonical CLS clears (0,0) and (31,63). -/
theorem test_cls : ((after (start 0x01E0 fun s => s.setFb ((s.fb.setPixel 0 0 true).setPixel 31 63 true))).map fun t =>
    (t.pc, t.fb.pixel 0 0, t.fb.pixel 31 63)) = some (0x202, false, false) := by decide
/-- T41.6. -/
theorem test_ret : ((after (start 0x00EE fun s => (s.setPc 0x400).setStack [0x202, 0x302])).map fun t =>
    (t.pc, t.stack)) = some (0x302, [0x202]) := by decide
/-- T41.7. -/
theorem test_ret_underflow : ((after (start 0x00EE asReset)).map fun t => (t.pc, t.halt)) =
    some (0x202, some (.stackUnderflow 0x200)) := by decide
/-- T41.1. -/
theorem test_jp : (after (start 0x1ABC asReset)).map (·.pc) = some 0xABC := by decide
/-- T41.4. -/
theorem test_call : ((after (start 0x2400 fun s => (s.setPc 0x300).setStack [0x202])).map fun t => (t.pc, t.stack)) =
    some (0x400, [0x202, 0x302]) := by decide
/-- T41.9, T41.10. -/
theorem test_seImm : (after (start 0x3342 fun s => s.setV 3 0x42)).map (·.pc) = some 0x204 ∧
    (after (start 0x3342 fun s => s.setV 3 0x41)).map (·.pc) = some 0x202 := by decide
/-- T41.11, T41.12. -/
theorem test_sneImm : (after (start 0x4342 fun s => s.setV 3 0x41)).map (·.pc) = some 0x204 ∧
    (after (start 0x4342 fun s => s.setV 3 0x42)).map (·.pc) = some 0x202 := by decide
/-- T40.8, T41.14. -/
theorem test_seReg : (after (start 0x5121 fun s => (s.setV 1 7).setV 2 7)).map (·.pc) = some 0x204 ∧
    (after (start 0x5120 fun s => (s.setV 1 9).setV 2 8)).map (·.pc) = some 0x202 := by decide
/-- T41.16, T40.9. -/
theorem test_sneReg : (after (start 0x9120 fun s => (s.setV 1 9).setV 2 8)).map (·.pc) = some 0x204 ∧
    (after (start 0x912F fun s => (s.setV 1 7).setV 2 7)).map (·.pc) = some 0x202 := by decide
/-- T41.21. -/
theorem test_jpV0 : (after (start 0xBFFF fun s => s.setV 0 0xFF)).map (·.pc) = some 0x10FE := by decide
/-- T40.10. -/
theorem test_ldImm : pcAndReg 0xA (start 0x6A55 fun s => s.setPc 0xFFE) = some (0x1000, 0x55) := by decide
/-- R161's example: the sum wraps. -/
theorem test_addImm : pcAndReg 0 (start 0x7002 fun s => s.setV 0 0xFF) = some (0x202, 0x01) := by decide
/-- R162's example. -/
theorem test_ldReg : pcAndReg 1 (start 0x8120 fun s => s.setV 2 0x33) = some (0x202, 0x33) := by decide
/-- R163, by hand: 0xF0 OR 0x3C. -/
theorem test_orReg : pcAndReg 1 (start 0x8121 fun s => (s.setV 1 0xF0).setV 2 0x3C) = some (0x202, 0xFC) := by decide
/-- R164, by hand: 0xF0 AND 0x3C. -/
theorem test_andReg : pcAndReg 1 (start 0x8122 fun s => (s.setV 1 0xF0).setV 2 0x3C) = some (0x202, 0x30) := by decide
/-- R165, by hand: 0xF0 XOR 0x3C. -/
theorem test_xorReg : pcAndReg 1 (start 0x8123 fun s => (s.setV 1 0xF0).setV 2 0x3C) = some (0x202, 0xCC) := by decide
/-- S5: 0xFF + 0x01. -/
theorem test_addReg : ((after (start 0x8124 fun s => (s.setV 1 0xFF).setV 2 0x01)).map fun t => (t.getV 1, t.getV 15)) =
    some (0x00, 0x01) := by decide
/-- R22 (c): with `x = F` the flag is what stays; 0xFF + 0x02 carries. -/
theorem test_addReg_vf : pcAndReg 15 (start 0x8F24 fun s => (s.setV 15 0xFF).setV 2 0x02) = some (0x202, 0x01) := by decide
/-- S6: 0x05 - 0x0A borrows. -/
theorem test_sub : ((after (start 0x8125 fun s => ((s.setV 1 0x05).setV 2 0x0A).setV 15 7)).map fun t =>
    (t.getV 1, t.getV 15)) = some (0xFB, 0x00) := by decide
/-- S6's pair, operands exchanged (R169): `V2 - V1` does not borrow. -/
theorem test_subn : ((after (start 0x8127 fun s => (s.setV 1 0x05).setV 2 0x0A)).map fun t =>
    (t.getV 1, t.getV 15)) = some (0x05, 0x01) := by decide
/-- R168, by hand: 0x05 shifts to 0x02, bit 0 out; `V2` is no operand. -/
theorem test_shr : ((after (start 0x8126 fun s => (s.setV 1 0x05).setV 2 0xF0)).map fun t =>
    (t.getV 1, t.getV 15)) = some (0x02, 0x01) := by decide
/-- R170, by hand: 0x81 shifts to 0x02, bit 7 out. -/
theorem test_shl : ((after (start 0x810E fun s => s.setV 1 0x81)).map fun t => (t.getV 1, t.getV 15)) =
    some (0x02, 0x01) := by decide
/-- R190's example. -/
theorem test_ldI : (after (start 0xA300 asReset)).map (·.i) = some 0x0300 := by decide
/-- R171: whatever the random byte, its AND with 0x00 is 0x00, and one draw is consumed. -/
theorem test_rnd_frame : (after (start 0xC100 fun s => s.setV 2 0x33)).map (fun t => (t.pc, t.draws, t.getV 2)) =
    some (0x202, 1, 0x33) := by decide
/-- T44.7: a collision turns (0,0) off. -/
theorem test_drw : ((after (start 0xD001 fun s => (poke 0x300 [0x80] (s.setI 0x300)).setFb (s.fb.setPixel 0 0 true))).map
    fun t => (t.getV 15, t.fb.pixel 0 0, t.fb.pixel 0 1)) = some (0x01, false, false) := by decide
/-- T44.12: `x = y = F`, the coordinates are the old `VF`. -/
theorem test_drw_vf : ((after (start 0xDFF1 fun s => (poke 0x300 [0x80] (s.setI 0x300)).setV 15 5)).map
    fun t => (t.getV 15, t.fb.pixel 5 5, t.fb.pixel 5 6)) = some (0x00, true, false) := by decide
/-- T45.1. -/
theorem test_skp : (after (start 0xE19E fun s => (s.setV 1 5).setKeys (s.keys.set 5 true))).map (·.pc) = some 0x204 := by decide
/-- T45.6. -/
theorem test_skp_index : ((after (start 0xE19E fun s => s.setV 1 0x10)).map fun t => (t.pc, t.halt)) =
    some (0x202, some (.keyIndex 0x200 0x10)) := by decide
/-- T45.3, T45.4. -/
theorem test_sknp : (after (start 0xE1A1 fun s => s.setV 1 5)).map (·.pc) = some 0x204 ∧
    (after (start 0xE1A1 fun s => (s.setV 1 5).setKeys (s.keys.set 5 true))).map (·.pc) = some 0x202 := by decide
/-- T45.8. -/
theorem test_ldVxDt : pcAndReg 2 (start 0xF207 fun s => s.setDt 0x3C) = some (0x202, 0x3C) := by decide
/-- T45.12: nothing latched. -/
theorem test_ldVxK_waits : pcAndReg 0 (start 0xF00A fun s => s.setV 0 0x33) = some (0x200, 0x33) := by decide
/-- T45.13: key 7 released. -/
theorem test_ldVxK : ((after (start 0xF00A fun s => (s.setV 0 0x33).latchRelease 7)).map fun t =>
    (t.pc, t.getV 0, t.latch.valid)) = some (0x202, 0x07, false) := by decide
/-- T45.9. -/
theorem test_ldDtVx : (after (start 0xF015 fun s => s.setV 0 7)).map (fun t => (t.dt, t.st)) = some (0x07, 0x00) := by decide
/-- T45.10. -/
theorem test_ldStVx : (after (start 0xF318 fun s => s.setV 3 2)).map (fun t => (t.dt, t.st)) = some (0x00, 0x02) := by decide
/-- T43.3. -/
theorem test_addI : ((after (start 0xF11E fun s => (s.setI 0x0FFF).setV 1 1)).map fun t => (t.i, t.getV 15)) =
    some (0x1000, 0x01) := by decide
/-- T43.5. -/
theorem test_addI_wraps : ((after (start 0xF11E fun s => ((s.setI 0xFFFF).setV 1 1).setV 15 1)).map fun t => (t.i, t.getV 15)) =
    some (0x0000, 0x00) := by decide
/-- T43.18. -/
theorem test_ldF : (after (start 0xF529 fun s => s.setV 5 0xFF)).map (·.i) = some 0x04FB := by decide
/-- T43.22: 123 at the top of memory. -/
theorem test_ldB : bytesAfter 0xFFD 3 (start 0xF033 fun s => (s.setI 0x0FFD).setV 0 0x7B) = some [1, 2, 3] := by decide
/-- T43.23. -/
theorem test_ldB_range : ((after (start 0xF033 fun s => (s.setI 0x0FFE).setV 0 0x7B)).map fun t => (t.pc, t.halt)) =
    some (0x202, some (.addrRangeData 0x200 0x0FFE)) := by decide
/-- T43.9: three bytes, `V3` is not stored. -/
theorem test_ldMemVx : bytesAfter 0x400 4 (start 0xF355 fun s =>
    (((s.setI 0x400).setV 0 1).setV 1 2).setV 2 3 |>.setV 3 4) = some [1, 2, 3, 0] := by decide
/-- T43.7: `x = 0` stores `V0` alone. -/
theorem test_ldMemVx_zero : bytesAfter 0x400 2 (start 0xF055 fun s =>
    poke 0x401 [0x99] (((s.setI 0x400).setV 0 0xAA).setV 1 0xBB)) = some [0xAA, 0x99] := by decide
/-- T43.11: `V2` keeps its value. -/
theorem test_ldVxMem : ((after (start 0xF265 fun s => poke 0x300 [2, 5, 4] ((s.setI 0x300).setV 2 0x77))).map fun t =>
    (t.getV 0, t.getV 1, t.getV 2, t.i)) = some (2, 5, 0x77, 0x300) := by decide
/-- T43.14. -/
theorem test_ldVxMem_range : ((after (start 0xF265 fun s => poke 0xFFF [0x5A] (s.setI 0xFFF))).map fun t =>
    (t.getV 0, t.halt)) = some (0, some (.addrRangeData 0x200 0x0FFF)) := by decide

/-! ### The cycle step and the events -/

/-- T40.6: the report and the advance. -/
theorem test_unknown : ((after (start 0x0123 asReset)).map fun t => (t.pc, t.hostLog)) = some (0x202, [.unknown 0x200 0x0123]) := by
  decide
/-- T40.12: `pc` is not advanced. -/
theorem test_fetch_range : ((after (State.reset.setPc 0xFFF)).map fun t => (t.pc, t.halt)) =
    some (0xFFF, some (.addrRangeFetch 0xFFF)) := by decide
/-- T60.1. -/
theorem test_timer : ((after ((State.reset.setDt 2).setSchedule [.timerStep])).map fun t => (t.dt, t.st)) = some (1, 0) := by decide
/-- T60.9. -/
theorem test_load : bytesAfter 0x200 2 (State.reset.setSchedule [.loadProgram [0xAB]]) = some [0xAB, 0x00] := by decide
/-- T60.10. -/
theorem test_latch : (after ((State.reset.latchRelease 3).setSchedule [.latchRelease 9])).map (·.latch) = some ⟨true, 9⟩ := by decide
/-- T60.7, from a halted state. -/
theorem test_reset : ((after ((State.reset.raise (.stackUnderflow 0x300)).setSchedule [.reset])).map fun t => (t.pc, t.halt)) =
    some (0x200, none) := by decide

/-! ### Witnesses: a concrete state and operands that meet the hypotheses of each obligation that has any -/

theorem step_of_after {s : State} (h : (after s).isSome = true) : ∃ t, step s = .next t := by
  unfold after at h
  split at h
  · exact ⟨_, ‹_›⟩
  · simp at h
  · simp at h

/-- EncodeOfDecodeIsTheWord: a canonical word, a non-canonical one, and the last word of the table. -/
theorem witness_EncodeOfDecodeIsTheWord :
    decode 0x00E0 = .ok (.cls 0) ∧ decode 0x5127 = .ok (.seReg 1 2 7) ∧ decode 0xFF65 = .ok (.ldVxMem 15) := by decide

/-- UnknownWordsAreThoseOfTheFourGroups: each clause's two sides at the edges of its range. -/
theorem witness_UnknownWordsAreThoseOfTheFourGroups :
    (decode 0x00DF = .error .group0 ∧ opField 0x00DF = 0x0 ∧ nnField 0x00DF ≠ 0xE0 ∧ nnField 0x00DF ≠ 0xEE) ∧
    (decode 0x8128 = .error .group8 ∧ opField 0x8128 = 0x8 ∧ nField 0x8128 = 0x8) ∧
    (decode 0x812F = .error .group8 ∧ nField 0x812F = 0xF) ∧
    (decode 0xE19F = .error .groupE ∧ opField 0xE19F = 0xE ∧ nnField 0xE19F ≠ 0x9E ∧ nnField 0xE19F ≠ 0xA1) ∧
    (decode 0xF166 = .error .groupF ∧ opField 0xF166 = 0xF ∧ nnField 0xF166 ≠ 0x65) := by decide

/-- DecoderIsTheOpcodeTable: a row, a word it matches, and a word no row matches. -/
theorem witness_DecoderIsTheOpcodeTable :
    (Instr.row (.jp 0)) ∈ opcodeRows ∧ (Instr.row (.jp 0)).matchesWord 0x1FFF = true ∧ decode 0x1FFF = .ok (.jp 0xFFF) ∧
    ∀ r, r ∈ opcodeRows → r.matchesWord 0xFFFF = false := by decide

/-- FieldsAreTheBitsOfTheWord: the last bit of each width. -/
theorem witness_FieldsAreTheBitsOfTheWord : 3 < 4 ∧ 7 < 8 ∧ 11 < 12 := by decide

/-- StepRunsTheDecodedInstruction, with no event scheduled and with the cycle step scheduled. -/
theorem witness_StepRunsTheDecodedInstruction :
    (start 0x6A55 asReset).Fetches 0x6A55 ∧ ((start 0x6A55 asReset).setSchedule [.cycleStep, .timerStep]).Fetches 0x6A55 ∧
    decode 0x6A55 = .ok (.ldImm 0xA 0x55) := ⟨⟨.inl rfl, rfl, by decide, by decide⟩, ⟨.inr rfl, rfl, by decide, by decide⟩, by decide⟩

/-- UnknownWordIsAReportedNoOp: the reset state itself. -/
theorem witness_UnknownWordIsAReportedNoOp : State.reset.Fetches 0x0000 ∧ decode 0x0000 = .error .group0 :=
  ⟨⟨.inl rfl, rfl, by decide, by decide⟩, by decide⟩

/-- FetchBeyondMemoryHalts at the first such `pc`. -/
theorem witness_FetchBeyondMemoryHalts :
    ((State.reset.setPc 0xFFF).schedule = [] ∨ (State.reset.setPc 0xFFF).schedule.head? = some .cycleStep) ∧
    (State.reset.setPc 0xFFF).halt = none ∧ 4095 < (State.reset.setPc 0xFFF).pc.toNat + 1 := by decide

theorem witness_HaltedMachineDoesNothing :
    (State.reset.raise (.stackUnderflow 0x200)).halt ≠ none ∧ (State.reset.raise (.stackUnderflow 0x200)).schedule = [] := by decide

/-- FetchIsBigEndian at the last fetchable address. -/
theorem witness_FetchIsBigEndian : (State.reset.setPc 0xFFE).pc.toNat ≤ 4094 := by decide

/-- PcAfterEachInstruction: a skip taken, a return, and a key wait with nothing latched. -/
theorem witness_PcAfterEachInstruction :
    (∃ t, exec (.seImm 0 0) { State.reset with pc := 0x200 + 2 } = .next t ∧ t.halt = State.reset.halt ∧ State.reset.halt = none) ∧
    (∃ t, exec (.ret 0) { State.reset.setStack [0x300] with pc := 0x200 + 2 } = .next t ∧
      t.halt = (State.reset.setStack [0x300]).halt ∧ (State.reset.setStack [0x300]).halt = none) ∧
    ∃ t, exec (.ldVxK 0) { State.reset with pc := 0x200 + 2 } = .next t ∧ t.halt = State.reset.halt ∧ State.reset.halt = none :=
  ⟨⟨_, rfl, rfl, rfl⟩, ⟨_, rfl, rfl, rfl⟩, ⟨_, rfl, rfl, rfl⟩⟩

theorem witness_EveryInstructionAnswersANextState : State.reset.schedule = [] := by decide

/-- EachComponentHasItsOwnWriters: an instruction that changes each component named. -/
theorem witness_EachComponentHasItsOwnWriters :
    (∃ t, exec (.ldImm 15 1) State.reset = .next t ∧ t.getV 15 ≠ State.reset.getV 15) ∧
    (∃ t, exec (.jp 0x300) State.reset = .next t ∧ t.pc ≠ State.reset.pc) ∧
    (∃ t, exec (.ldDtVx 0) (State.reset.setV 0 7) = .next t ∧ t.dt ≠ (State.reset.setV 0 7).dt) ∧
    (∃ t, exec (.ldStVx 0) (State.reset.setV 0 7) = .next t ∧ t.st ≠ (State.reset.setV 0 7).st) ∧
    (∃ t, exec (.call 0x300) State.reset = .next t ∧ t.stack ≠ State.reset.stack) ∧
    (∃ t, exec (.ldVxK 0) (State.reset.latchRelease 7) = .next t ∧ t.latch ≠ (State.reset.latchRelease 7).latch) ∧
    (∃ t, exec (.ldB 0) State.reset = .next t ∧ t.mem ≠ State.reset.mem) ∧
    (∃ t, exec (.drw 0 0 1) State.reset = .next t ∧ t.fb ≠ State.reset.fb) ∧
    (∃ t, exec (.ldI 1) State.reset = .next t ∧ t.i ≠ State.reset.i) ∧
    (∃ t, exec (.rnd 0 0) State.reset = .next t ∧ t.draws ≠ State.reset.draws) ∧
    ∃ t, exec (.ret 0) State.reset = .next t ∧ t.halt ≠ State.reset.halt :=
  ⟨⟨_, rfl, by decide⟩, ⟨_, rfl, by decide⟩, ⟨_, rfl, by decide⟩, ⟨_, rfl, by decide⟩, ⟨_, rfl, by decide⟩, ⟨_, rfl, by decide⟩,
    ⟨_, rfl, by decide⟩, ⟨_, rfl, by decide⟩, ⟨_, rfl, by decide⟩, ⟨_, rfl, by decide⟩, ⟨_, rfl, by decide⟩⟩

/-- FlagIsZeroOrOne: the seven instructions, `VF` the destination, and the draw at the top of memory. -/
theorem witness_FlagIsZeroOrOne :
    State.reset.halt = none ∧ (∃ t, exec (.addReg 15 15) State.reset = .next t ∧ t.halt = none) ∧
    (∃ t, exec (.sub 15 0) State.reset = .next t ∧ t.halt = none) ∧ (∃ t, exec (.subn 15 0) State.reset = .next t ∧ t.halt = none) ∧
    (∃ t, exec (.shr 15 0) State.reset = .next t ∧ t.halt = none) ∧ (∃ t, exec (.shl 15 0) State.reset = .next t ∧ t.halt = none) ∧
    (∃ t, exec (.addI 15) State.reset = .next t ∧ t.halt = none) ∧
    ∃ t, exec (.drw 15 15 1) (State.reset.setI 0xFFF) = .next t ∧ t.halt = none :=
  ⟨rfl, ⟨_, rfl, rfl⟩, ⟨_, rfl, rfl⟩, ⟨_, rfl, rfl⟩, ⟨_, rfl, rfl⟩, ⟨_, rfl, rfl⟩, ⟨_, rfl, rfl⟩, ⟨_, rfl, rfl⟩⟩

/-- EveryStepKeepsTheInvariant: from the reset state. -/
theorem witness_EveryStepKeepsTheInvariant : State.reset.Inv ∧ ∃ t, step State.reset = .next t :=
  ⟨⟨rfl, by decide, List.forall_mem_nil _⟩, step_of_after (by decide)⟩

/-- WriteChangesOneByte: canonical memory, and the first address of each clause. -/
theorem witness_WriteChangesOneByte : Memory.wf State.reset.mem = true ∧ 4095 < 4096 ∧ 4095 ≤ 4095 ∧ 4094 ≠ 4095 := by decide

/-- ReadsAreCheckedAndBigEndian: the addresses where its clauses meet. -/
theorem witness_ReadsAreCheckedAndBigEndian : 4095 < 4096 ∧ 4095 ≤ 4095 ∧ 4095 < 4095 + 1 ∧ 4094 + 1 ≤ 4095 := by decide

/-- StoreIsSeenByTheNextFetch, LD [I]: one register stored at the last byte, fetched as a low byte by a state with that memory. -/
theorem witness_StoreIsSeenByTheNextFetch_dump :
    Memory.wf (State.reset.setI 0xFFF).mem = true ∧ 1 = (if (0 : RegIdx) = 0 then 1 else (0 : RegIdx).toNat) ∧
    [(0 : Byte)] = ((List.range 1).map fun k => (State.reset.setI 0xFFF).getV (BitVec.ofNat 4 k)) ∧
    (State.reset.setI 0xFFF).i.toNat + 1 ≤ 4096 ∧
    ∃ t u : State, exec (.ldMemVx 0) (State.reset.setI 0xFFF) = .next t ∧ u.mem = t.mem ∧ u.pc.toNat ≤ 4094 :=
  ⟨by decide, by decide, by decide, by decide, ⟨_, State.reset.setPc 0xFFE, rfl, by decide, by decide⟩⟩

/-- StoreIsSeenByTheNextFetch, LD B: the digits of 123 at the last three bytes, fetched from the second. -/
theorem witness_StoreIsSeenByTheNextFetch_digits :
    Memory.wf ((State.reset.setI 0xFFD).setV 0 123).mem = true ∧ ((State.reset.setI 0xFFD).setV 0 123).i.toNat ≤ 4093 ∧
    ([1, 2, 3] : List Byte) = [BitVec.ofNat 8 ((((State.reset.setI 0xFFD).setV 0 123).getV 0).toNat / 100),
      BitVec.ofNat 8 ((((State.reset.setI 0xFFD).setV 0 123).getV 0).toNat / 10 % 10),
      BitVec.ofNat 8 ((((State.reset.setI 0xFFD).setV 0 123).getV 0).toNat % 10)] ∧
    ∃ t u : State, exec (.ldB 0) ((State.reset.setI 0xFFD).setV 0 123) = .next t ∧ u.mem = t.mem ∧ u.pc.toNat ≤ 4094 :=
  ⟨by decide, by decide, by decide,
    ⟨_, (State.reset.setPc 0xFFE).setMem [(0xFFD, 1), (0xFFE, 2), (0xFFF, 3)], rfl, by decide, by decide⟩⟩

theorem witness_ResetMemoryPcAndScreen : 80 ≤ 80 := by decide

/-- ResetEventRestoresEverythingButTheHostsSide: a halted machine, and a later event. -/
theorem witness_ResetEventRestoresEverythingButTheHostsSide :
    ((State.reset.raise (.stackUnderflow 0x200)).setSchedule [.reset, .timerStep]).schedule = .reset :: [.timerStep] := rfl

/-- LoadProgramIsVerbatimOrNothing: the largest image that fits, with its last byte, and the smallest that does not. -/
theorem witness_LoadProgramIsVerbatimOrNothing :
    (State.reset.setSchedule [.loadProgram [0xAB]]).schedule = .loadProgram [0xAB] :: [] ∧
    (State.reset.setSchedule [.loadProgram [0xAB]]).atReset = true ∧ 0 < [0xAB].length ∧
    (∀ bytes : List Byte, (State.reset.setSchedule [.loadProgram bytes]).atReset = true) ∧
    3583 < (List.replicate 3584 (0 : Byte)).length ∧ (List.replicate 3584 (0 : Byte)).length ≤ 3584 ∧
    3584 < (List.replicate 3585 (0 : Byte)).length :=
  ⟨rfl, by decide, by decide, fun bytes => by unfold State.atReset; exact decide_eq_true rfl,
    by rw [List.length_replicate]; decide, by rw [List.length_replicate], by rw [List.length_replicate]; decide⟩

/-- A state whose next event is a load of no bytes, with the difference given from the reset state. -/
def loading (difference : State → State) : State := difference (State.reset.setSchedule [.loadProgram []])

/-- LateLoadIsRefused: for each reason one state that meets it, with the load its next event. -/
theorem witness_LateLoadIsRefused :
    (∃ s : State, s = loading (·.setPc 0x202) ∧ s.schedule = .loadProgram [] :: [] ∧ s.pc ≠ 0x200) ∧
    (∃ s : State, s = loading (·.setMem [(0x200, 1)]) ∧ s.schedule = .loadProgram [] :: [] ∧ s.mem ≠ []) ∧
    (∃ s : State, s = loading (·.setStack [0x202]) ∧ s.schedule = .loadProgram [] :: [] ∧ s.stack ≠ []) ∧
    (∃ s : State, s = loading (·.setI 1) ∧ s.schedule = .loadProgram [] :: [] ∧ s.i ≠ 0) ∧
    (∃ s : State, s = loading (·.raise (.stackUnderflow 0x200)) ∧ s.schedule = .loadProgram [] :: [] ∧ s.halt ≠ none) ∧
    (∃ s : State, s = loading (·.setV 15 1) ∧ s.schedule = .loadProgram [] :: [] ∧ s.getV 15 ≠ 0) ∧
    (∃ s : State, s = loading (·.setDt 1) ∧ s.schedule = .loadProgram [] :: [] ∧ s.dt ≠ 0) ∧
    (∃ s : State, s = loading (·.setSt 1) ∧ s.schedule = .loadProgram [] :: [] ∧ s.st ≠ 0) ∧
    ∃ s : State, s = loading (fun s => s.setFb (s.fb.setPixel 31 63 true)) ∧ s.schedule = .loadProgram [] :: [] ∧
      Framebuffer.pixel s.fb 31 63 = true :=
  ⟨⟨_, rfl, by decide, by decide⟩, ⟨_, rfl, by decide, by decide⟩, ⟨_, rfl, by decide, by decide⟩, ⟨_, rfl, by decide, by decide⟩, ⟨_, rfl, by decide, by decide⟩,
    ⟨_, rfl, by decide, by decide⟩, ⟨_, rfl, by decide, by decide⟩, ⟨_, rfl, by decide, by decide⟩, ⟨_, rfl, by decide, by decide⟩⟩

theorem witness_TimerStepCountsDownToZero :
    (State.reset.setSchedule [.timerStep]).schedule = .timerStep :: [] ∧ (State.reset.setSchedule [.timerStep]).halt = none := ⟨rfl, rfl⟩

theorem witness_TimersSaturateAtZero : (State.reset.setDt 2).halt = none := rfl

/-- HostInputsReachTheirRegisters: its two clauses, one state each. -/
theorem witness_HostInputsReachTheirRegisters :
    (State.reset.setSchedule [.setKeys (Vector.replicate 16 true)]).schedule = .setKeys (Vector.replicate 16 true) :: [] ∧
    (State.reset.setSchedule [.latchRelease 15]).schedule = .latchRelease 15 :: [] := ⟨rfl, rfl⟩

theorem witness_ReturnPopsTheNewestEntry : (State.reset.setStack [0x202, 0x302]).stack = [0x202] ++ [0x302] := rfl

theorem witness_ReturnOnEmptyStackHalts : State.reset.stack = [] := rfl

/-- ReturnUndoesCall: the return runs in another state with the stack the call left. -/
theorem witness_ReturnUndoesCall :
    ∃ t, exec (.call 0x300) State.reset = .next t ∧ (State.reset.setStack [0x200]).stack = t.stack := ⟨_, rfl, rfl⟩

/-- FiniteStackOverflows: a full stack of one entry, and one with room for one more. -/
theorem witness_FiniteStackOverflows :
    1 ≤ (State.reset.setStack [0x202]).stack.length ∧ (State.reset.setStack [0x202]).stack.length < 2 := by decide

/-- The destination is not `VF`, the operand restriction of the result clauses of AddRegistersCarries, SubtractsFlagNoBorrow and
ShiftsMoveOneBitIntoTheFlag; and a bit of a byte, that of LogicIsBitwiseWithoutFlag. -/
theorem witness_AddRegistersCarries : (14 : RegIdx) ≠ 15 := by decide
theorem witness_SubtractsFlagNoBorrow : (14 : RegIdx) ≠ 15 := by decide
theorem witness_ShiftsMoveOneBitIntoTheFlag : (14 : RegIdx) ≠ 15 := by decide
theorem witness_LogicIsBitwiseWithoutFlag : 7 < 8 := by decide

/-- RandomIsMaskedByTheImmediate: a bit the immediate has 0. -/
theorem witness_RandomIsMaskedByTheImmediate : (0x0F : Byte).getLsbD 7 = false := by decide

/-- FontAddressIsFiveTimesVx: the last digit, on reset memory. -/
theorem witness_FontAddressIsFiveTimesVx : ((State.reset.setV 0 15).getV 0).toNat ≤ 15 ∧ (State.reset.setV 0 15).mem = [] := by decide

/-- DecimalDigitsAreStored at the last index that fits. -/
theorem witness_DecimalDigitsAreStored :
    Memory.wf (State.reset.setI 0xFFD).mem = true ∧ (State.reset.setI 0xFFD).i.toNat ≤ 4093 := by decide

/-- DumpStoresTheFirstRegisters at the last index that fits, for `x = 0` and `x = 15`, with a register moved. -/
theorem witness_DumpStoresTheFirstRegisters :
    Memory.wf (State.reset.setI 0xFFF).mem = true ∧ 1 = (if (0 : RegIdx) = 0 then 1 else (0 : RegIdx).toNat) ∧
    (State.reset.setI 0xFFF).i.toNat + 1 ≤ 4096 ∧ (0 : RegIdx).toNat < 1 ∧
    Memory.wf (State.reset.setI 0xFF1).mem = true ∧ 15 = (if (15 : RegIdx) = 0 then 1 else (15 : RegIdx).toNat) ∧
    (State.reset.setI 0xFF1).i.toNat + 15 ≤ 4096 ∧ (14 : RegIdx).toNat < 15 := by decide

/-- LoadFillsTheFirstRegisters, the same edges. -/
theorem witness_LoadFillsTheFirstRegisters :
    1 = (if (0 : RegIdx) = 0 then 1 else (0 : RegIdx).toNat) ∧ (State.reset.setI 0xFFF).i.toNat + 1 ≤ 4096 ∧
    (0 : RegIdx).toNat < 1 ∧ 15 = (if (15 : RegIdx) = 0 then 1 else (15 : RegIdx).toNat) ∧
    (State.reset.setI 0xFF1).i.toNat + 15 ≤ 4096 ∧ (14 : RegIdx).toNat < 15 := by decide

/-- AccessBeyondMemoryHalts: the first index too high for each clause. -/
theorem witness_AccessBeyondMemoryHalts :
    4095 < (State.reset.setI 0xFFE).i.toNat + 2 ∧
    4096 < (State.reset.setI 0xFF2).i.toNat + (if (15 : RegIdx) = 0 then 1 else (15 : RegIdx).toNat) ∧
    4096 < (State.reset.setI 0x1000).i.toNat + (if (0 : RegIdx) = 0 then 1 else (0 : RegIdx).toNat) ∧
    1 ≤ (1 : Nibble).toNat ∧ 4096 < (State.reset.setI 0x1000).i.toNat + (1 : Nibble).toNat := by decide

/-- LoadUndoesDump: 15 registers at the top of memory, loaded by another state with the same memory and `I`. -/
theorem witness_LoadUndoesDump :
    Memory.wf (State.reset.setI 0xFF1).mem = true ∧
    (State.reset.setI 0xFF1).i.toNat + (if (15 : RegIdx) = 0 then 1 else (15 : RegIdx).toNat) ≤ 4096 ∧
    ∃ t u : State, exec (.ldMemVx 15) (State.reset.setI 0xFF1) = .next t ∧ u.mem = t.mem ∧ u.i = t.i ∧ u.getV 0 = 9 :=
  ⟨by decide, by decide, ⟨_, (State.reset.setI 0xFF1).setV 0 9, rfl, by decide, by decide, by decide⟩⟩

/-- DrawTogglesTheSpritesPixels: no rows with `I` anywhere, and rows up to the last byte. -/
theorem witness_DrawTogglesTheSpritesPixels :
    ((0 : Nibble) = 0 ∨ (State.reset.setI 0xFFFF).i.toNat + (0 : Nibble).toNat ≤ 4096) ∧
    ((15 : Nibble) = 0 ∨ (State.reset.setI 0xFF1).i.toNat + (15 : Nibble).toNat ≤ 4096) ∧ 31 < 32 ∧ 63 < 64 := by decide

/-- DrawingTwiceRestoresTheScreen: glyph 0 on the clear screen. -/
theorem witness_DrawingTwiceRestoresTheScreen :
    (0 : RegIdx) ≠ 15 ∧ (14 : RegIdx) ≠ 15 ∧ ((5 : Nibble) = 0 ∨ State.reset.i.toNat + (5 : Nibble).toNat ≤ 4096) ∧
    ∃ t, exec (.drw 0 14 5) State.reset = .next t := ⟨by decide, by decide, by decide, ⟨_, rfl⟩⟩

/-- KeySkipsFollowTheKey: the last key. -/
theorem witness_KeySkipsFollowTheKey : ((State.reset.setV 1 15).getV 1).toNat = (15 : Nibble).toNat := by decide

/-- KeyIndexAboveFifteenHalts: the first value that names no key. -/
theorem witness_KeyIndexAboveFifteenHalts : 15 < ((State.reset.setV 1 16).getV 1).toNat := by decide

/-- KeyWaitConsumesTheRelease: a state for each clause. -/
theorem witness_KeyWaitConsumesTheRelease :
    (State.reset.latchRelease 15).latch.valid = true ∧ State.reset.latch.valid = false := by decide

theorem witness_KeyWaitWaitsForever :
    (start 0xF00A asReset).schedule = [] ∧ (start 0xF00A asReset).Fetches 0xF00A ∧ decode 0xF00A = .ok (.ldVxK 0) ∧
    (start 0xF00A asReset).latch.valid = false := ⟨rfl, ⟨.inl rfl, rfl, by decide, by decide⟩, by decide, rfl⟩

/-- ParkedMachineStaysParked: the jump to itself of T41.2, and one at the last fetchable address. -/
theorem witness_ParkedMachineStaysParked :
    (start 0x1200 asReset).Parked 0x200 ∧ (start 0x1200 asReset).schedule = [] ∧
    (start 0x1FFE fun s => s.setPc 0xFFE).Parked 0xFFE :=
  ⟨⟨by decide, by decide, by decide, by decide⟩, rfl, ⟨by decide, by decide, by decide, by decide⟩⟩

end Sys2Proof.Tests
end

section
/-! SUPPORT. Family 10_state: what a step keeps, what no instruction reads, the flag's values, and the host's events. -/

namespace Sys2Proof.Machine

/-! ### The invariant is kept (spec/10_state.md R40) -/

/-- The invariant while a handler runs: `pc` has already advanced, past an instruction that lies inside memory (R121, R122). -/
structure State.MidStep (s : State) : Prop where
  mem : Memory.wf s.mem = true
  pc_ge : 2 ≤ s.pc.toNat
  pc_le : s.pc.toNat ≤ 4096
  stack : ∀ w ∈ s.stack, 2 ≤ w.toNat ∧ w.toNat ≤ 4096

/-- Up to the end of memory, `pc + 2` does not wrap (R122; D18). -/
theorem toNat_add_two {w : Word} (h : w.toNat ≤ 4096) : (w + 2).toNat = w.toNat + 2 := by bv_omega

/-- The invariant speaks of memory, `pc` and the stack only. -/
theorem State.Inv.of_eq {s t : State} (h : s.Inv) (hm : t.mem = s.mem) (hp : t.pc = s.pc) (hs : t.stack = s.stack) :
    t.Inv := by
  unfold State.Inv
  rw [hm, hp, hs]
  exact h

/-- After the fetch and the advance of a fetchable instruction, the state is one that a handler may start in. -/
theorem State.Inv.midStep_advance {s : State} (h : s.Inv) (hf : s.pc.toNat ≤ 4094) : (s.setPc (s.pc + 2)).MidStep := by
  obtain ⟨hmem, -, hstack⟩ := h
  have hpc : (s.pc + 2).toNat = s.pc.toNat + 2 := toNat_add_two (by omega)
  exact { mem := hmem, pc_ge := by rw [State.setPc_pc]; omega, pc_le := by rw [State.setPc_pc]; omega, stack := hstack }

namespace State.MidStep

theorem inv {s : State} (h : s.MidStep) : s.Inv := ⟨h.mem, h.pc_le.trans (by decide), h.stack⟩

/-- A handler that leaves memory, `pc` and the stack alone keeps the invariant. -/
theorem inv_of_eq {s t : State} (h : s.MidStep) (hm : t.mem = s.mem) (hp : t.pc = s.pc) (hs : t.stack = s.stack) : t.Inv :=
  h.inv.of_eq hm hp hs

theorem inv_setPc {s : State} (h : s.MidStep) {w : Word} (hw : w.toNat ≤ 0x10FE) : (s.setPc w).Inv :=
  ⟨h.mem, hw, h.stack⟩

/-- A 12-bit target is in bounds (R141, R142). -/
theorem inv_setPc_zext12 {s : State} (h : s.MidStep) (nnn : Addr12) : (s.setPc (zext12 nnn)).Inv := by
  have := nnn.isLt
  exact h.inv_setPc (by rw [toNat_zext12]; omega)

/-- The largest `pc` there is: a 12-bit target plus a byte (R147). -/
theorem inv_setPc_offset {s : State} (h : s.MidStep) (nnn : Addr12) (b : Byte) : (s.setPc (zext12 nnn + zext8 b)).Inv := by
  have hn := nnn.isLt
  have hb := b.isLt
  refine h.inv_setPc ?_
  rw [BitVec.toNat_add, toNat_zext12, toNat_zext8]
  omega

/-- A skip, taken or not (R143). -/
theorem inv_skip {s : State} (h : s.MidStep) (c : Bool) : (s.setPc (if c then s.pc + 2 else s.pc)).Inv := by
  have hpc := h.pc_le
  cases c with
  | true => exact h.inv_setPc (by rw [if_pos rfl, toNat_add_two hpc]; omega)
  | false => exact h.inv

/-- The key wait's way back (R235). -/
theorem inv_rewind {s : State} (h : s.MidStep) : (s.setPc (s.pc - 2)).Inv := by
  have hlow := h.pc_ge
  have hpc := h.pc_le
  exact h.inv_setPc (by bv_omega)

/-- The address CALL pushes is one past an instruction inside memory (R142). -/
theorem push {s : State} (h : s.MidStep) : (s.setStack (s.stack ++ [s.pc])).MidStep := by
  refine { mem := h.mem, pc_ge := h.pc_ge, pc_le := h.pc_le, stack := fun w hw => ?_ }
  rcases List.mem_append.1 hw with hw | hw
  · exact h.stack w hw
  · rw [List.mem_singleton.1 hw]
    exact ⟨h.pc_ge, h.pc_le⟩

/-- RET leaves the older entries, and goes to the newest. -/
theorem inv_pop {s : State} (h : s.MidStep) {l : List Word} {w : Word} (hl : s.stack = l ++ [w]) :
    ((s.setStack l).setPc w).Inv := by
  have hstack := h.stack
  rw [hl] at hstack
  have htop := hstack w (by simp)
  exact ⟨h.mem, by rw [State.setPc_pc]; omega, fun v hv => hstack v (List.mem_append_left _ hv)⟩

end State.MidStep

theorem storeAtIndex_inv {s t : State} {bytes : List Byte} {w : Word} (hs : s.MidStep)
    (h : storeAtIndex bytes w s = .next t) : t.Inv := by
  rcases storeAtIndex_cases h with ⟨hr, rfl⟩ | ⟨-, rfl⟩
  · obtain ⟨-, hpc, hstack⟩ := hs.inv
    exact ⟨Memory.wf_writeBytes_inRange hs.mem hr, hpc, hstack⟩
  · exact hs.inv_of_eq rfl rfl rfl

theorem loadRegs_inv {s t : State} {b : Bool} {count : Nat} (hs : s.MidStep) (h : loadRegs b count s = .next t) : t.Inv := by
  rcases loadRegs_cases h with ⟨-, rfl⟩ | ⟨-, rfl⟩ <;> exact hs.inv_of_eq rfl rfl rfl

theorem skipOnKey_inv {s t : State} {wanted : Bool} {x : RegIdx} (hs : s.MidStep)
    (h : skipOnKey wanted x s = .next t) : t.Inv := by
  rcases skipOnKey_cases h with ⟨-, rfl⟩ | ⟨-, rfl⟩
  · exact hs.inv_of_eq rfl rfl rfl
  · exact hs.inv_skip _

theorem execDrw_inv {s t : State} {x y : RegIdx} {n : Nibble} (hs : s.MidStep) (h : execDrw x y n s = .next t) : t.Inv := by
  rcases execDrw_cases h with ⟨-, rfl⟩ | ⟨-, rfl⟩ <;> exact hs.inv_of_eq rfl rfl rfl

theorem execRet_inv {s t : State} {z : Nibble} (hs : s.MidStep) (h : execRet z s = .next t) : t.Inv := by
  rcases execRet_cases h with ⟨-, rfl⟩ | ⟨l, w, hl, rfl⟩
  · exact hs.inv_of_eq rfl rfl rfl
  · exact hs.inv_pop hl

theorem execLdVxK_inv {s t : State} {x : RegIdx} (hs : s.MidStep) (h : exec (.ldVxK x) s = .next t) : t.Inv := by
  cases hv : s.latch.valid with
  | true =>
    rw [exec_ldVxK_latched x s hv] at h
    cases h
    exact hs.inv_of_eq rfl rfl rfl
  | false =>
    rw [exec_ldVxK_waiting x s hv] at h
    cases h
    exact hs.inv_rewind

/-- Every handler, started on an advanced `pc`, ends in a state that meets the invariant. -/
theorem exec_inv {i : Instr} {s t : State} (hs : s.MidStep) (h : exec i s = .next t) : t.Inv := by
  cases i with
  | cls | ldImm | addImm | ldReg | orReg | andReg | xorReg | addReg | sub | shr | subn | shl | rnd
  | ldI | addI | ldF | ldVxDt | ldDtVx | ldStVx =>
    cases h
    exact hs.inv_of_eq rfl rfl rfl
  | jp nnn => cases h; exact hs.inv_setPc_zext12 nnn
  | call nnn => cases h; exact hs.push.inv_setPc_zext12 nnn
  | jpV0 nnn => cases h; exact hs.inv_setPc_offset nnn (s.getV 0)
  | seImm x nn => rw [exec_seImm] at h; cases h; exact hs.inv_skip _
  | sneImm x nn => rw [exec_sneImm] at h; cases h; exact hs.inv_skip _
  | seReg x y z => rw [exec_seReg] at h; cases h; exact hs.inv_skip _
  | sneReg x y z => rw [exec_sneReg] at h; cases h; exact hs.inv_skip _
  | ret z => exact execRet_inv (z := z) hs h
  | drw x y n => exact execDrw_inv hs h
  | skp x => exact skipOnKey_inv hs h
  | sknp x => exact skipOnKey_inv hs h
  | ldVxK x => exact execLdVxK_inv hs h
  | ldB x => exact storeAtIndex_inv hs h
  | ldMemVx x => exact storeAtIndex_inv hs h
  | ldVxMem x => exact loadRegs_inv hs h

theorem cycleStep_inv {s t : State} (hs : s.Inv) (h : cycleStep s = .next t) : t.Inv := by
  rcases cycleStep_cases h with ⟨-, rfl⟩ | ⟨-, -, rfl⟩ | ⟨-, hpc, w, -, ⟨i, -, hx⟩ | ⟨u, -, rfl⟩⟩
  · exact hs
  · exact hs.of_eq rfl rfl rfl
  · exact exec_inv (hs.midStep_advance hpc) hx
  · exact (hs.midStep_advance hpc).inv_of_eq rfl rfl rfl

theorem timerStep_inv {s : State} (hs : s.Inv) : (timerStep s).Inv := by
  unfold timerStep
  split
  · exact hs
  · exact hs.of_eq rfl rfl rfl

/-- A state with the reset memory, the reset `pc` and an empty stack meets the invariant. -/
theorem State.inv_of_reset_values {s : State} (hm : s.mem = []) (hp : s.pc = 0x200) (hs : s.stack = []) : s.Inv := by
  unfold State.Inv
  rw [hm, hp, hs]
  exact ⟨Memory.wf_nil, by decide, List.forall_mem_nil _⟩

/-- A load into a machine that is not in its reset state is refused (R38; D24). -/
theorem State.loadEvent_of_not_atReset {s : State} {bytes : List Byte} (h : s.atReset = false) :
    s.loadEvent bytes = .refused .loadNotAtReset := if_neg (by simp [h])

theorem loadEvent_inv {s t : State} {bytes : List Byte} (hs : s.Inv) (h : s.loadEvent bytes = .next t) : t.Inv := by
  cases hr : s.atReset with
  | false =>
    rw [State.loadEvent_of_not_atReset hr] at h
    cases h
  | true =>
    rw [State.loadEvent_of_atReset hr] at h
    split at h
    · next hl =>
      cases h
      obtain ⟨hmem, hpc, hstack⟩ := hs
      have hfits : 0x200 + bytes.length ≤ Config.memSize := by
        unfold Config.memSize
        omega
      exact ⟨Memory.wf_writeBytes hmem hfits, hpc, hstack⟩
    · cases h
      exact hs.of_eq rfl rfl rfl

theorem applyEvent_inv {e : Event} {s t : State} (hs : s.Inv) (h : applyEvent e s = .next t) : t.Inv := by
  cases e with
  | reset => cases h; exact State.inv_of_reset_values rfl rfl rfl
  | loadProgram bytes => exact loadEvent_inv hs h
  | setKeys keys => cases h; exact hs.of_eq rfl rfl rfl
  | latchRelease k => cases h; exact hs.of_eq rfl rfl rfl
  | cycleStep => exact cycleStep_inv hs h
  | timerStep => cases h; exact timerStep_inv hs

/-- Settles O18: a cycle step through what a handler does from an advanced `pc`, and the host's events one by one. -/
theorem everyStepKeepsTheInvariant : Obligations.EveryStepKeepsTheInvariant := by
  unfold Obligations.EveryStepKeepsTheInvariant
  intro s t hs h
  rcases step_cases h with ⟨-, h⟩ | ⟨e, rest, -, h⟩
  · exact cycleStep_inv hs h
  · exact applyEvent_inv (State.Inv.of_eq (t := s.setSchedule rest) hs rfl rfl rfl) h

/-- Settles O17. -/
theorem resetMeetsTheInvariant : Obligations.ResetMeetsTheInvariant := by
  unfold Obligations.ResetMeetsTheInvariant
  intro l
  exact State.inv_of_reset_values rfl rfl rfl

/-! ### The sound timer is read by no instruction (R27) -/

/-- A handler carries a change of the sound timer through: it ends in the same state with the same change. -/
def CarriesSt (f : State → Host.Outcome State Fault Refusal) (s : State) (b : Byte) : Prop :=
  ∃ t, f s = .next t ∧ f (s.setSt b) = .next (t.setSt b)

theorem storeAtIndex_carriesSt (bytes : List Byte) (w : Word) (s : State) (b : Byte) :
    CarriesSt (storeAtIndex bytes w) s b := by
  cases hr : inRange s.indexBase bytes.length with
  | true => exact ⟨_, storeAtIndex_inRange hr, storeAtIndex_inRange (s := s.setSt b) hr⟩
  | false => exact ⟨_, storeAtIndex_outOfRange hr, storeAtIndex_outOfRange (s := s.setSt b) hr⟩

theorem loadRegs_carriesSt (inc : Bool) (count : Nat) (s : State) (b : Byte) : CarriesSt (loadRegs inc count) s b := by
  cases hr : inRange s.indexBase count with
  | true => exact ⟨_, loadRegs_inRange hr, loadRegs_inRange (s := s.setSt b) hr⟩
  | false => exact ⟨_, loadRegs_outOfRange hr, loadRegs_outOfRange (s := s.setSt b) hr⟩

theorem skipWhen_carriesSt (c : Bool) (s : State) (b : Byte) : CarriesSt (skipWhen c) s b :=
  ⟨_, skipWhen_eq c s, skipWhen_eq c (s.setSt b)⟩

theorem skipOnKey_of_le {wanted : Bool} {x : RegIdx} {s : State} (h : (s.getV x).toNat ≤ 15) :
    skipOnKey wanted x s = skipWhen (s.keyDown ((s.getV x).setWidth 4) == wanted) s := if_neg (by omega)

theorem skipOnKey_of_gt {wanted : Bool} {x : RegIdx} {s : State} (h : 15 < (s.getV x).toNat) :
    skipOnKey wanted x s = .next (s.raise (.keyIndex s.instrAddr (s.getV x))) := if_pos h

theorem skipOnKey_carriesSt (wanted : Bool) (x : RegIdx) (s : State) (b : Byte) : CarriesSt (skipOnKey wanted x) s b := by
  rcases Nat.lt_or_ge 15 (s.getV x).toNat with hk | hk
  · exact ⟨_, skipOnKey_of_gt hk, skipOnKey_of_gt (s := s.setSt b) hk⟩
  · obtain ⟨t, ht, hu⟩ := skipWhen_carriesSt (s.keyDown ((s.getV x).setWidth 4) == wanted) s b
    exact ⟨t, (skipOnKey_of_le hk).trans ht, (skipOnKey_of_le (s := s.setSt b) hk).trans hu⟩

theorem execDrw_inRange {x y : RegIdx} {n : Nibble} {s : State} (h : inRange s.indexBase n.toNat = true) :
    execDrw x y n s = .next (drawRows (s.getV x) (s.getV y) (s.mem.readBytes s.i.toNat n.toNat) s) := if_pos h

theorem execDrw_outOfRange {x y : RegIdx} {n : Nibble} {s : State} (h : inRange s.indexBase n.toNat = false) :
    execDrw x y n s = .next s.raiseDataRange := if_neg (by simp [h])

theorem execDrw_carriesSt (x y : RegIdx) (n : Nibble) (s : State) (b : Byte) : CarriesSt (execDrw x y n) s b := by
  cases hr : inRange s.indexBase n.toNat with
  | true => exact ⟨_, execDrw_inRange hr, execDrw_inRange (s := s.setSt b) hr⟩
  | false => exact ⟨_, execDrw_outOfRange hr, execDrw_outOfRange (s := s.setSt b) hr⟩

theorem execRet_carriesSt (z : Nibble) (s : State) (b : Byte) : CarriesSt (execRet z) s b := by
  unfold CarriesSt execRet
  rcases List.eq_nil_or_concat s.stack with hs | ⟨l, w, hs⟩
  · rw [State.pop_nil s hs, State.pop_nil (s.setSt b) hs]
    exact ⟨_, rfl, rfl⟩
  · rw [List.concat_eq_append] at hs
    rw [State.pop_concat s l w hs, State.pop_concat (s.setSt b) l w hs]
    exact ⟨_, rfl, rfl⟩

theorem exec_ldVxK_carriesSt (x : RegIdx) (s : State) (b : Byte) : CarriesSt (exec (.ldVxK x)) s b := by
  cases hv : s.latch.valid with
  | true => exact ⟨_, exec_ldVxK_latched x s hv, exec_ldVxK_latched x (s.setSt b) hv⟩
  | false => exact ⟨_, exec_ldVxK_waiting x s hv, exec_ldVxK_waiting x (s.setSt b) hv⟩

/-- LD ST,Vx overwrites the change; every other handler carries it through. -/
theorem exec_carriesSt (i : Instr) (s : State) (b : Byte) : (∃ x, i = .ldStVx x) ∨ CarriesSt (exec i) s b := by
  cases i with
  | ldStVx x => exact .inl ⟨x, rfl⟩
  | cls | jp | call | jpV0 | ldImm | addImm | ldReg | orReg | andReg | xorReg | addReg | sub | shr | subn | shl | rnd
  | ldI | addI | ldF | ldVxDt | ldDtVx => exact .inr ⟨_, rfl, rfl⟩
  | seImm | sneImm | seReg | sneReg => exact .inr (skipWhen_carriesSt _ s b)
  | ret z => exact .inr (execRet_carriesSt z s b)
  | drw x y n => exact .inr (execDrw_carriesSt x y n s b)
  | skp x => exact .inr (skipOnKey_carriesSt true x s b)
  | sknp x => exact .inr (skipOnKey_carriesSt false x s b)
  | ldVxK x => exact .inr (exec_ldVxK_carriesSt x s b)
  | ldB x => exact .inr (storeAtIndex_carriesSt _ s.i s b)
  | ldMemVx x => exact .inr (storeAtIndex_carriesSt _ s.i s b)
  | ldVxMem x => exact .inr (loadRegs_carriesSt _ _ s b)

/-- Settles O15: the two runs end in states that differ by the same change, or agree where LD ST,Vx overwrites it. -/
theorem soundTimerIsNeverRead : Obligations.SoundTimerIsNeverRead := by
  unfold Obligations.SoundTimerIsNeverRead
  intro i s b
  rcases exec_carriesSt i s b with ⟨x, rfl⟩ | ⟨t, ht, hu⟩
  · exact ⟨_, _, exec_ldStVx x s, exec_ldStVx x (s.setSt b), rfl⟩
  · exact ⟨t, t.setSt b, ht, hu, rfl⟩

/-! ### The flag (R22) -/

/-- A flag byte written to `VF` last reads as 0 or 1, whatever was written before it. -/
theorem State.getV_vf_of_flagByte (s : State) (c : Bool) :
    (s.setV vfIdx (flagByte c)).getV 15 = 0 ∨ (s.setV vfIdx (flagByte c)).getV 15 = 1 := by
  change (s.setV vfIdx (flagByte c)).getV vfIdx = 0 ∨ (s.setV vfIdx (flagByte c)).getV vfIdx = 1
  rw [State.getV_setV_self]
  exact flagByte_cases c

/-- Settles O16: each of the seven writes a flag byte to `VF`, and writes it last. -/
theorem flagIsZeroOrOne : Obligations.FlagIsZeroOrOne := by
  unfold Obligations.FlagIsZeroOrOne
  intro i s t x y n hi _ h ht
  rcases hi with rfl | rfl | rfl | rfl | rfl | rfl | rfl
  on_goal 7 =>
    rcases execDrw_cases h with ⟨-, rfl⟩ | ⟨-, rfl⟩
    · exact State.getV_vf_of_flagByte _ _
    · simp at ht
  all_goals
    cases h
    exact State.getV_vf_of_flagByte _ _

/-! ### Loading after reset (R38) -/

/-- The machine's side of the reset state: what every component but the host's inputs holds there (R36, R290). -/
theorem State.values_of_atReset {s : State} (h : s.atReset = true) :
    s.pc = 0x200 ∧ s.mem = [] ∧ s.stack = [] ∧ s.i = 0 ∧ s.halt = none ∧ (∀ r, s.getV r = 0) ∧ s.dt = 0 ∧ s.st = 0 ∧
      ∀ r c, Framebuffer.pixel s.fb r c = false := by
  have hs : { s.resetEvent with latch := s.latch } = s := of_decide_eq_true h
  rw [← hs]
  exact ⟨rfl, rfl, rfl, rfl, rfl, fun r => Vector.getElem_replicate r.isLt, rfl, rfl, Framebuffer.pixel_clear⟩

/-- Settles O25: the refusal is the other side of `atReset`, and a difference in any component named contradicts it. -/
theorem lateLoadIsRefused : Obligations.LateLoadIsRefused := by
  unfold Obligations.LateLoadIsRefused
  intro s bytes rest hsch hdiff
  have hnot : (s.setSchedule rest).atReset = false := by
    refine Bool.eq_false_iff.2 fun hr => ?_
    obtain ⟨hpc, hmem, hstack, hi, hhalt, hv, hdt, hst, hfb⟩ := State.values_of_atReset hr
    rcases hdiff with h | h | h | h | h | ⟨r, h⟩ | h | h | ⟨r, c, h⟩
    · exact h hpc
    · exact h hmem
    · exact h hstack
    · exact h hi
    · exact h hhalt
    · exact h (hv r)
    · exact h hdt
    · exact h hst
    · exact Bool.false_ne_true ((hfb r c).symm.trans h)
  rw [step_of_cons hsch]
  exact State.loadEvent_of_not_atReset hnot

/-! ### Reset, and the host's inputs (R29, R30, R36) -/

/-- Above the font, memory that nothing has written reads as 0x00 (R36, R62). -/
theorem Memory.unlisted_of_ge {a : Nat} (h : 80 ≤ a) : Memory.unlisted a = 0x00 := by
  have hlen : Params.font.length = 80 := by decide
  rw [Memory.unlisted, List.getD_eq_default _ _ (by omega)]

/-- Settles O22: the screen and the bytes above the font for every coordinate and address, the sixteen glyphs by evaluation. -/
theorem resetMemoryPcAndScreen : Obligations.ResetMemoryPcAndScreen := by
  unfold Obligations.ResetMemoryPcAndScreen
  refine ⟨rfl, Framebuffer.pixel_clear, fun a ha => Memory.unlisted_of_ge ha, ?_⟩
  decide

/-- Settles O28: a step applies the scheduled event, and the two inputs are one field each. -/
theorem hostInputsReachTheirRegisters : Obligations.HostInputsReachTheirRegisters := by
  unfold Obligations.HostInputsReachTheirRegisters
  intro s rest keys k
  constructor
  · intro h
    rw [step_of_cons h]
    rfl
  · intro h
    rw [step_of_cons h]
    rfl

end Sys2Proof.Machine
end

section
/-! SUPPORT. Family 20_memory: the checked reads and writes, accesses through `I`, the fetch after a store, and loading a program. -/

namespace Sys2Proof.Machine

/-! ### Reads and writes of one and two bytes (spec/20_memory.md R64, R65, R68) -/

theorem State.memRead8_of_le {s : State} {a : Nat} (h : a ≤ 4095) : s.memRead8 a = some (s.mem.read a) :=
  if_pos ((inRange_iff (by decide)).2 (by omega))

theorem State.memRead8_of_gt {s : State} {a : Nat} (h : 4095 < a) : s.memRead8 a = none :=
  if_neg (by rw [inRange_iff (by decide)]; omega)

theorem State.memRead16_of_le {s : State} {a : Nat} (h : a + 1 ≤ 4095) :
    s.memRead16 a = some (wordOfBytes (s.mem.read a) (s.mem.read (a + 1))) :=
  if_pos ((inRange_iff (by decide)).2 (by omega))

theorem State.memRead16_of_gt {s : State} {a : Nat} (h : 4095 < a + 1) : s.memRead16 a = none :=
  if_neg (by rw [inRange_iff (by decide)]; omega)

theorem State.memWrite8_of_le {s : State} {a : Nat} {b : Byte} (h : a ≤ 4095) :
    s.memWrite8 a b = some (s.setMem (s.mem.write a b)) :=
  if_pos ((inRange_iff (by decide)).2 (by omega))

theorem State.memWrite8_of_gt {s : State} {a : Nat} {b : Byte} (h : 4095 < a) : s.memWrite8 a b = none :=
  if_neg (by rw [inRange_iff (by decide)]; omega)

/-- Settles O19: in range the write is `Memory.write`, which reads back the byte there and the old bytes elsewhere. -/
theorem writeChangesOneByte : Obligations.WriteChangesOneByte := by
  unfold Obligations.WriteChangesOneByte
  intro s a b hwf
  refine ⟨State.memWrite8_of_gt, fun ha => ⟨_, State.memWrite8_of_le ha, ?_, ?_, rfl⟩⟩
  · exact Memory.read_write_self a b hwf
  · exact Memory.read_write_ne s.mem a b

/-- Settles O20: the range check decides each clause, and a two-byte value is the number its two bytes spell. -/
theorem readsAreCheckedAndBigEndian : Obligations.ReadsAreCheckedAndBigEndian := by
  unfold Obligations.ReadsAreCheckedAndBigEndian
  intro s a
  exact ⟨State.memRead8_of_gt, State.memRead8_of_le, State.memRead16_of_gt,
    fun ha => ⟨_, State.memRead16_of_le ha, toNat_wordOfBytes _ _⟩⟩

/-! ### The two bytes of a word (R68) -/

theorem extractLsb'_wordOfBytes_high (hi lo : Byte) : (wordOfBytes hi lo).extractLsb' 8 8 = hi :=
  BitVec.extractLsb'_append_eq_left

theorem extractLsb'_wordOfBytes_low (hi lo : Byte) : (wordOfBytes hi lo).extractLsb' 0 8 = lo :=
  BitVec.extractLsb'_append_eq_right

/-- Settles O11: the word fetched is the word of the two bytes at `pc`. -/
theorem fetchIsBigEndian : Obligations.FetchIsBigEndian := by
  unfold Obligations.FetchIsBigEndian
  intro s hpc
  exact ⟨_, State.fetchWord_of_le s hpc, extractLsb'_wordOfBytes_high _ _, extractLsb'_wordOfBytes_low _ _⟩

/-! ### Accesses through `I` (R66, R254) -/

theorem inRange_of_le {base count : Nat} (h : base + count ≤ 4096) : inRange base count = true :=
  decide_eq_true (.inr h)

/-- How many registers dump and load move, in the statements' words (R196). -/
theorem countRegs_eq_ite (x : RegIdx) : countRegs Params.memInclusive x = if x = 0 then 1 else x.toNat := by
  rw [countRegs_hardware]
  exact if_congr (BitVec.toNat_inj (y := 0#4)) rfl rfl

/-- The fatal condition of an access through `I` sets HALT and nothing else (R254, R261). -/
theorem State.raiseDataRange_onlyHalts (s : State) : OnlyHalts (.addrRangeData (s.pc - 2) s.i) s s.raiseDataRange :=
  ⟨rfl, rfl⟩

theorem storeAtIndex_halts {bytes : List Byte} {w : Word} {s : State} (hc : 0 < bytes.length)
    (h : 4096 < s.i.toNat + bytes.length) :
    ∃ t, storeAtIndex bytes w s = .next t ∧ OnlyHalts (.addrRangeData (s.pc - 2) s.i) s t :=
  ⟨_, storeAtIndex_outOfRange ((not_inRange_iff hc).2 h), s.raiseDataRange_onlyHalts⟩

theorem loadRegs_halts {b : Bool} {count : Nat} {s : State} (hc : 0 < count) (h : 4096 < s.i.toNat + count) :
    ∃ t, loadRegs b count s = .next t ∧ OnlyHalts (.addrRangeData (s.pc - 2) s.i) s t :=
  ⟨_, loadRegs_outOfRange ((not_inRange_iff hc).2 h), s.raiseDataRange_onlyHalts⟩

theorem execDrw_halts {x y : RegIdx} {n : Nibble} {s : State} (hc : 0 < n.toNat) (h : 4096 < s.i.toNat + n.toNat) :
    ∃ t, execDrw x y n s = .next t ∧ OnlyHalts (.addrRangeData (s.pc - 2) s.i) s t :=
  ⟨_, execDrw_outOfRange ((not_inRange_iff hc).2 h), s.raiseDataRange_onlyHalts⟩

/-- Settles O49: each of the four checks the range of its whole access, of one byte or more, before it does anything. -/
theorem accessBeyondMemoryHalts : Obligations.AccessBeyondMemoryHalts := by
  unfold Obligations.AccessBeyondMemoryHalts
  intro s x y n
  have hcount : 0 < countRegs Params.memInclusive x := (countRegs_bounds x).1
  refine ⟨fun h => ?_, fun h => ?_, fun hn h => execDrw_halts hn h⟩
  · have hdigits : (decimalDigits (s.getV x)).length = 3 := rfl
    exact storeAtIndex_halts (by omega) (by omega)
  · rw [← countRegs_eq_ite] at h
    have hbytes := RegFile.length_prefixBytes s.v (countRegs Params.memInclusive x)
    exact ⟨storeAtIndex_halts (by omega) (by omega), loadRegs_halts hcount h⟩

/-! ### The fetch after a store (R76) -/

/-- After a store through `I` that fits, whichever state has its memory fetches the stored bytes where they stand. -/
theorem State.fetchWord_of_storeAtIndex {s t u : State} {bytes : List Byte} {w : Word} (hwf : Memory.wf s.mem = true)
    (hfit : s.i.toNat + bytes.length ≤ 4096) (h : storeAtIndex bytes w s = .next t) (hu : u.mem = t.mem)
    (hpc : u.pc.toNat ≤ 4094) :
    u.fetchWord = some (wordOfBytes (s.byteAfterStore bytes u.pc.toNat) (s.byteAfterStore bytes (u.pc.toNat + 1))) := by
  rw [storeAtIndex_inRange (inRange_of_le hfit)] at h
  cases h
  have hread : ∀ a, Memory.read u.mem a = s.byteAfterStore bytes a := by
    intro a
    rw [hu]
    exact State.read_writeBytes_index hwf hfit a
  rw [State.fetchWord_of_le u hpc, hread, hread]

/-- Settles O21: both instructions are a store through `I`, of the first registers or of three digits. -/
theorem storeIsSeenByTheNextFetch : Obligations.StoreIsSeenByTheNextFetch := by
  unfold Obligations.StoreIsSeenByTheNextFetch
  intro s t u x c bytes hwf hu hpc
  refine ⟨fun hc hbytes hfit h => ?_, fun hbytes hfit h => ?_⟩
  · rw [← countRegs_eq_ite] at hc
    subst hc hbytes
    exact State.fetchWord_of_storeAtIndex hwf (by simpa using hfit) h hu hpc
  · subst hbytes
    exact State.fetchWord_of_storeAtIndex hwf (Nat.add_le_add_right hfit 3) h hu hpc

/-! ### Loading a program (R80) -/

/-- Another schedule leaves a machine in its reset state there: the host's coming events are no part of it (R38; log entry 8). -/
theorem State.atReset_setSchedule {s : State} (rest : List Event) (h : s.atReset = true) :
    (s.setSchedule rest).atReset = true :=
  decide_eq_true (congrArg (·.setSchedule rest) (of_decide_eq_true h))

/-- Settles O24: the load event's two outcomes, and on reset memory a write of the image reads back byte for byte. -/
theorem loadProgramIsVerbatimOrNothing : Obligations.LoadProgramIsVerbatimOrNothing := by
  unfold Obligations.LoadProgramIsVerbatimOrNothing
  intro s bytes rest hsch hreset
  have hstep : step s = (s.setSchedule rest).loadEvent bytes := step_of_cons hsch
  rw [State.loadEvent_of_atReset (State.atReset_setSchedule rest hreset)] at hstep
  refine ⟨fun hlong => ?_, fun hfits => ?_⟩
  · rw [if_neg (by omega)] at hstep
    exact hstep
  · rw [if_pos hfits] at hstep
    obtain ⟨-, hmem, -, -, hhalt, -⟩ := State.values_of_atReset hreset
    have hwf : Memory.wf s.mem = true := by rw [hmem]; exact Memory.wf_nil
    have hend : 0x200 + bytes.length ≤ Config.memSize := Nat.add_le_add_left hfits 0x200
    refine ⟨_, hstep, ?_, ?_, hhalt, rfl⟩
    · exact Memory.read_writeBytes hwf hend
    · exact Memory.read_writeBytes_outside s.mem 0x200 bytes

end Sys2Proof.Machine
end

section
/-! SUPPORT. Family 30_encoding: decoder and encoder invert each other, the unknown words, the opcode table, and the fields. -/

namespace Sys2Proof

/-! ### Decoding an encoded instruction (R94 to R98) -/

theorem decode_encodeXNN_group0 (z : Nibble) (nn : Byte) : decode (encodeXNN 0x0 z nn) = decodeGroup0 z nn := by
  simp [decode]

theorem decode_encodeXYN_group8 (x y : RegIdx) (n : Nibble) : decode (encodeXYN 0x8 x y n) = decodeGroup8 x y n := by
  simp [decode]

theorem decode_encodeXNN_groupE (x : RegIdx) (nn : Byte) : decode (encodeXNN 0xE x nn) = decodeGroupE x nn := by
  simp [decode]

theorem decode_encodeXNN_groupF (x : RegIdx) (nn : Byte) : decode (encodeXNN 0xF x nn) = decodeGroupF x nn := by
  simp [decode]

/-- Settles O1: in four groups the encoded discriminator selects the instruction; in the others the group alone does. -/
theorem decodeOfEncodeIsTheInstruction : Obligations.DecodeOfEncodeIsTheInstruction := by
  unfold Obligations.DecodeOfEncodeIsTheInstruction
  intro i
  cases i with
  | cls z | ret z => exact decode_encodeXNN_group0 z _
  | ldReg x y | orReg x y | andReg x y | xorReg x y | addReg x y | sub x y | shr x y | subn x y | shl x y =>
    exact decode_encodeXYN_group8 x y _
  | skp x | sknp x => exact decode_encodeXNN_groupE x _
  | ldVxDt x | ldVxK x | ldDtVx x | ldStVx x | addI x | ldF x | ldB x | ldMemVx x | ldVxMem x =>
    exact decode_encodeXNN_groupF x _
  | jp nnn | call nnn | ldI nnn | jpV0 nnn => simp [encode, decode]
  | seImm x nn | sneImm x nn | ldImm x nn | addImm x nn | rnd x nn => simp [encode, decode]
  | seReg x y n | sneReg x y n | drw x y n => simp [encode, decode]

/-! ### What the decoder can answer (R94, R100, R101) -/

/-! A word of a known group is rebuilt from that group and the word's fields, in each of the three formats. -/

theorem encodeNNN_of_opField {w : Word} {op : Nibble} (h : opField w = op) : encodeNNN op (nnnField w) = w :=
  h ▸ encodeNNN_fields w

theorem encodeXNN_of_opField {w : Word} {op : Nibble} (h : opField w = op) : encodeXNN op (xField w) (nnField w) = w :=
  h ▸ encodeXNN_fields w

theorem encodeXYN_of_opField {w : Word} {op : Nibble} (h : opField w = op) :
    encodeXYN op (xField w) (yField w) (nField w) = w :=
  h ▸ encodeXYN_fields w

/-! An instruction that a group with a discriminator answers with spells that group, those fields and that discriminator. -/

theorem encode_of_decodeGroup0 {z : Nibble} {nn : Byte} {i : Instr} (h : decodeGroup0 z nn = .ok i) :
    encode i = encodeXNN 0x0 z nn := by
  unfold decodeGroup0 at h
  split_ifs at h <;> cases h <;> subst nn <;> rfl

theorem encode_of_decodeGroup8 {x y : RegIdx} {n : Nibble} {i : Instr} (h : decodeGroup8 x y n = .ok i) :
    encode i = encodeXYN 0x8 x y n := by
  unfold decodeGroup8 at h
  split_ifs at h <;> cases h <;> subst n <;> rfl

theorem encode_of_decodeGroupE {x : RegIdx} {nn : Byte} {i : Instr} (h : decodeGroupE x nn = .ok i) :
    encode i = encodeXNN 0xE x nn := by
  unfold decodeGroupE at h
  split_ifs at h <;> cases h <;> subst nn <;> rfl

theorem encode_of_decodeGroupF {x : RegIdx} {nn : Byte} {i : Instr} (h : decodeGroupF x nn = .ok i) :
    encode i = encodeXNN 0xF x nn := by
  unfold decodeGroupF at h
  split_ifs at h <;> cases h <;> subst nn <;> rfl

/-- What the decoder can answer: in a group with a discriminator what that group answers, in any other an instruction
that spells the word. -/
theorem decode_cases (w : Word) :
    (opField w = 0x0 ∧ decode w = decodeGroup0 (xField w) (nnField w)) ∨
    (opField w = 0x8 ∧ decode w = decodeGroup8 (xField w) (yField w) (nField w)) ∨
    (opField w = 0xE ∧ decode w = decodeGroupE (xField w) (nnField w)) ∨
    (opField w = 0xF ∧ decode w = decodeGroupF (xField w) (nnField w)) ∨
    ((opField w ≠ 0x0 ∧ opField w ≠ 0x8 ∧ opField w ≠ 0xE ∧ opField w ≠ 0xF) ∧ ∃ i, decode w = .ok i ∧ encode i = w) := by
  have hop {k : Nat} (h : (opField w).toNat = k) : opField w = BitVec.ofNat 4 k := by rw [← h, BitVec.ofNat_toNat]; rfl
  unfold decode
  -- Arm `h_(k+1)` of the match is group `k`, and `h_16` its default.
  split
  case h_1 h => exact .inl ⟨hop h, rfl⟩
  case h_9 h => exact .inr (.inl ⟨hop h, rfl⟩)
  case h_15 h => exact .inr (.inr (.inl ⟨hop h, rfl⟩))
  case h_16 =>
    have hlt : (opField w).toNat < 16 := (opField w).isLt
    have hF : (opField w).toNat = 15 := by
      simp only [imp_false] at *
      omega
    exact .inr (.inr (.inr (.inl ⟨hop hF, rfl⟩)))
  case h_2 h | h_3 h | h_11 h | h_12 h =>
    exact .inr (.inr (.inr (.inr ⟨hop h ▸ by decide, _, rfl, encodeNNN_of_opField (hop h)⟩)))
  case h_4 h | h_5 h | h_7 h | h_8 h | h_13 h =>
    exact .inr (.inr (.inr (.inr ⟨hop h ▸ by decide, _, rfl, encodeXNN_of_opField (hop h)⟩)))
  case h_6 h | h_10 h | h_14 h =>
    exact .inr (.inr (.inr (.inr ⟨hop h ▸ by decide, _, rfl, encodeXYN_of_opField (hop h)⟩)))

/-- Settles O2: a group with a discriminator answers with an instruction of the word's fields, and the others always do. -/
theorem encodeOfDecodeIsTheWord : Obligations.EncodeOfDecodeIsTheWord := by
  unfold Obligations.EncodeOfDecodeIsTheWord
  intro w i hi
  rcases decode_cases w with ⟨hop, hd⟩ | ⟨hop, hd⟩ | ⟨hop, hd⟩ | ⟨hop, hd⟩ | ⟨-, j, hd, hj⟩ <;> rw [hd] at hi
  · exact (encode_of_decodeGroup0 hi).trans (encodeXNN_of_opField hop)
  · exact (encode_of_decodeGroup8 hi).trans (encodeXYN_of_opField hop)
  · exact (encode_of_decodeGroupE hi).trans (encodeXNN_of_opField hop)
  · exact (encode_of_decodeGroupF hi).trans (encodeXNN_of_opField hop)
  · cases hi
    exact hj

/-- Decoding and encoding are inverse to each other (R101). -/
theorem decode_eq_ok_iff {w : Word} {i : Instr} : decode w = .ok i ↔ encode i = w :=
  ⟨encodeOfDecodeIsTheWord w i, fun h => h ▸ decodeOfEncodeIsTheInstruction i⟩

/-! ### The unknown words (R100) -/

/-! A group refuses exactly the discriminators none of its tests selects, each under its own name. -/

theorem decodeGroup0_eq_error_iff {z : Nibble} {nn : Byte} {u : UnknownOpcode} :
    decodeGroup0 z nn = .error u ↔ u = .group0 ∧ nn ≠ 0xE0 ∧ nn ≠ 0xEE := by
  unfold decodeGroup0
  split_ifs <;> simp_all [@eq_comm _ UnknownOpcode.group0]

theorem decodeGroupE_eq_error_iff {x : RegIdx} {nn : Byte} {u : UnknownOpcode} :
    decodeGroupE x nn = .error u ↔ u = .groupE ∧ nn ≠ 0x9E ∧ nn ≠ 0xA1 := by
  unfold decodeGroupE
  split_ifs <;> simp_all [@eq_comm _ UnknownOpcode.groupE]

theorem decodeGroupF_eq_error_iff {x : RegIdx} {nn : Byte} {u : UnknownOpcode} :
    decodeGroupF x nn = .error u ↔ u = .groupF ∧ nn ≠ 0x07 ∧ nn ≠ 0x0A ∧ nn ≠ 0x15 ∧ nn ≠ 0x18 ∧ nn ≠ 0x1E ∧
      nn ≠ 0x29 ∧ nn ≠ 0x33 ∧ nn ≠ 0x55 ∧ nn ≠ 0x65 := by
  unfold decodeGroupF
  split_ifs <;> simp_all [@eq_comm _ UnknownOpcode.groupF]

theorem decodeGroup8_eq_error_iff_ne {x y : RegIdx} {n : Nibble} {u : UnknownOpcode} :
    decodeGroup8 x y n = .error u ↔ u = .group8 ∧ n ≠ 0x0 ∧ n ≠ 0x1 ∧ n ≠ 0x2 ∧ n ≠ 0x3 ∧ n ≠ 0x4 ∧ n ≠ 0x5 ∧
      n ≠ 0x6 ∧ n ≠ 0x7 ∧ n ≠ 0xE := by
  unfold decodeGroup8
  split_ifs <;> simp_all [@eq_comm _ UnknownOpcode.group8]

/-- Of the sixteen values of `n`, group 8 refuses the seven that select nothing (R96). -/
theorem decodeGroup8_eq_error_iff {x y : RegIdx} {n : Nibble} {u : UnknownOpcode} :
    decodeGroup8 x y n = .error u ↔
      u = .group8 ∧ (n = 0x8 ∨ n = 0x9 ∨ n = 0xA ∨ n = 0xB ∨ n = 0xC ∨ n = 0xD ∨ n = 0xF) := by
  have hcover : ∀ n : Nibble, (n ≠ 0x0 ∧ n ≠ 0x1 ∧ n ≠ 0x2 ∧ n ≠ 0x3 ∧ n ≠ 0x4 ∧ n ≠ 0x5 ∧ n ≠ 0x6 ∧ n ≠ 0x7 ∧ n ≠ 0xE) ↔
      (n = 0x8 ∨ n = 0x9 ∨ n = 0xA ∨ n = 0xB ∨ n = 0xC ∨ n = 0xD ∨ n = 0xF) := by decide
  rw [decodeGroup8_eq_error_iff_ne, hcover]

/-- An unknown word is one that the group of its selector refuses. -/
theorem decode_eq_error_iff {w : Word} {u : UnknownOpcode} : decode w = .error u ↔
    (opField w = 0x0 ∧ decodeGroup0 (xField w) (nnField w) = .error u) ∨
    (opField w = 0x8 ∧ decodeGroup8 (xField w) (yField w) (nField w) = .error u) ∨
    (opField w = 0xE ∧ decodeGroupE (xField w) (nnField w) = .error u) ∨
    (opField w = 0xF ∧ decodeGroupF (xField w) (nnField w) = .error u) := by
  rcases decode_cases w with ⟨hop, hd⟩ | ⟨hop, hd⟩ | ⟨hop, hd⟩ | ⟨hop, hd⟩ | ⟨hop, i, hd, -⟩ <;> rw [hd]
  · simp [hop]
  · simp [hop]
  · simp [hop]
  · simp [hop]
  · simp_all

/-- Settles O3: a word is unknown where its group refuses it, and each group refuses under its own name only. -/
theorem unknownWordsAreThoseOfTheFourGroups : Obligations.UnknownWordsAreThoseOfTheFourGroups := by
  unfold Obligations.UnknownWordsAreThoseOfTheFourGroups
  intro w
  simp [decode_eq_error_iff, decodeGroup0_eq_error_iff, decodeGroup8_eq_error_iff, decodeGroupE_eq_error_iff,
    decodeGroupF_eq_error_iff]

/-! ### The opcode table (R102, R103)

A word that matches a pattern under one of the three masks is rebuilt from the pattern where the mask has bits and from
its own fields elsewhere. -/

theorem opField_of_matches {op : Nibble} {w : Word} (h : OpcodeRow.matchesWord ⟨0xF000, encodeNNN op 0⟩ w = true) :
    opField w = op := by
  have hw : encodeNNN (opField w) 0 = encodeNNN op 0 := and_mask_op w ▸ eq_of_beq h
  simpa using congrArg opField hw

theorem encodeXNN_of_matches {op : Nibble} {nn : Byte} {w : Word}
    (h : OpcodeRow.matchesWord ⟨0xF0FF, encodeXNN op 0 nn⟩ w = true) : encodeXNN op (xField w) nn = w := by
  have hw : encodeXNN (opField w) 0 (nnField w) = encodeXNN op 0 nn := and_mask_opNN w ▸ eq_of_beq h
  have hop : opField w = op := by simpa using congrArg opField hw
  have hnn : nnField w = nn := by simpa using congrArg nnField hw
  rw [← hop, ← hnn, encodeXNN_fields]

theorem encodeXYN_of_matches {op n : Nibble} {w : Word}
    (h : OpcodeRow.matchesWord ⟨0xF00F, encodeXYN op 0 0 n⟩ w = true) : encodeXYN op (xField w) (yField w) n = w := by
  have hw : encodeXYN (opField w) 0 0 (nField w) = encodeXYN op 0 0 n := and_mask_opN w ▸ eq_of_beq h
  have hop : opField w = op := by simpa using congrArg opField hw
  have hn : nField w = n := by simpa using congrArg nField hw
  rw [← hop, ← hn, encodeXYN_fields]

/-- A word that matches the row of some instruction spells the instruction of that row with the word's own fields. -/
theorem exists_encode_of_matches {j : Instr} {w : Word} (h : j.row.matchesWord w = true) :
    ∃ i, encode i = w ∧ i.row = j.row := by
  cases j with
  | cls => exact ⟨.cls (xField w), encodeXNN_of_matches h, rfl⟩
  | ret => exact ⟨.ret (xField w), encodeXNN_of_matches h, rfl⟩
  | jp => exact ⟨.jp (nnnField w), encodeNNN_of_opField (opField_of_matches h), rfl⟩
  | call => exact ⟨.call (nnnField w), encodeNNN_of_opField (opField_of_matches h), rfl⟩
  | seImm => exact ⟨.seImm (xField w) (nnField w), encodeXNN_of_opField (opField_of_matches h), rfl⟩
  | sneImm => exact ⟨.sneImm (xField w) (nnField w), encodeXNN_of_opField (opField_of_matches h), rfl⟩
  | seReg => exact ⟨.seReg (xField w) (yField w) (nField w), encodeXYN_of_opField (opField_of_matches h), rfl⟩
  | ldImm => exact ⟨.ldImm (xField w) (nnField w), encodeXNN_of_opField (opField_of_matches h), rfl⟩
  | addImm => exact ⟨.addImm (xField w) (nnField w), encodeXNN_of_opField (opField_of_matches h), rfl⟩
  | ldReg => exact ⟨.ldReg (xField w) (yField w), encodeXYN_of_matches h, rfl⟩
  | orReg => exact ⟨.orReg (xField w) (yField w), encodeXYN_of_matches h, rfl⟩
  | andReg => exact ⟨.andReg (xField w) (yField w), encodeXYN_of_matches h, rfl⟩
  | xorReg => exact ⟨.xorReg (xField w) (yField w), encodeXYN_of_matches h, rfl⟩
  | addReg => exact ⟨.addReg (xField w) (yField w), encodeXYN_of_matches h, rfl⟩
  | sub => exact ⟨.sub (xField w) (yField w), encodeXYN_of_matches h, rfl⟩
  | shr => exact ⟨.shr (xField w) (yField w), encodeXYN_of_matches h, rfl⟩
  | subn => exact ⟨.subn (xField w) (yField w), encodeXYN_of_matches h, rfl⟩
  | shl => exact ⟨.shl (xField w) (yField w), encodeXYN_of_matches h, rfl⟩
  | sneReg => exact ⟨.sneReg (xField w) (yField w) (nField w), encodeXYN_of_opField (opField_of_matches h), rfl⟩
  | ldI => exact ⟨.ldI (nnnField w), encodeNNN_of_opField (opField_of_matches h), rfl⟩
  | jpV0 => exact ⟨.jpV0 (nnnField w), encodeNNN_of_opField (opField_of_matches h), rfl⟩
  | rnd => exact ⟨.rnd (xField w) (nnField w), encodeXNN_of_opField (opField_of_matches h), rfl⟩
  | drw => exact ⟨.drw (xField w) (yField w) (nField w), encodeXYN_of_opField (opField_of_matches h), rfl⟩
  | skp => exact ⟨.skp (xField w), encodeXNN_of_matches h, rfl⟩
  | sknp => exact ⟨.sknp (xField w), encodeXNN_of_matches h, rfl⟩
  | ldVxDt => exact ⟨.ldVxDt (xField w), encodeXNN_of_matches h, rfl⟩
  | ldVxK => exact ⟨.ldVxK (xField w), encodeXNN_of_matches h, rfl⟩
  | ldDtVx => exact ⟨.ldDtVx (xField w), encodeXNN_of_matches h, rfl⟩
  | ldStVx => exact ⟨.ldStVx (xField w), encodeXNN_of_matches h, rfl⟩
  | addI => exact ⟨.addI (xField w), encodeXNN_of_matches h, rfl⟩
  | ldF => exact ⟨.ldF (xField w), encodeXNN_of_matches h, rfl⟩
  | ldB => exact ⟨.ldB (xField w), encodeXNN_of_matches h, rfl⟩
  | ldMemVx => exact ⟨.ldMemVx (xField w), encodeXNN_of_matches h, rfl⟩
  | ldVxMem => exact ⟨.ldVxMem (xField w), encodeXNN_of_matches h, rfl⟩

/-- The word of an instruction matches the instruction's row. -/
theorem row_matches_encode : ∀ i : Instr, i.row.matchesWord (encode i) = true
  | .cls z => Laws.TableRow.cls z
  | .ret z => Laws.TableRow.ret z
  | .jp nnn => Laws.TableRow.jp nnn
  | .call nnn => Laws.TableRow.call nnn
  | .seImm x nn => Laws.TableRow.seImm x nn
  | .sneImm x nn => Laws.TableRow.sneImm x nn
  | .seReg x y z => Laws.TableRow.seReg x y z
  | .ldImm x nn => Laws.TableRow.ldImm x nn
  | .addImm x nn => Laws.TableRow.addImm x nn
  | .ldReg x y => Laws.TableRow.ldReg x y
  | .orReg x y => Laws.TableRow.orReg x y
  | .andReg x y => Laws.TableRow.andReg x y
  | .xorReg x y => Laws.TableRow.xorReg x y
  | .addReg x y => Laws.TableRow.addReg x y
  | .sub x y => Laws.TableRow.sub x y
  | .shr x y => Laws.TableRow.shr x y
  | .subn x y => Laws.TableRow.subn x y
  | .shl x y => Laws.TableRow.shl x y
  | .sneReg x y z => Laws.TableRow.sneReg x y z
  | .ldI nnn => Laws.TableRow.ldI nnn
  | .jpV0 nnn => Laws.TableRow.jpV0 nnn
  | .rnd x nn => Laws.TableRow.rnd x nn
  | .drw x y n => Laws.TableRow.drw x y n
  | .skp x => Laws.TableRow.skp x
  | .sknp x => Laws.TableRow.sknp x
  | .ldVxDt x => Laws.TableRow.ldVxDt x
  | .ldVxK x => Laws.TableRow.ldVxK x
  | .ldDtVx x => Laws.TableRow.ldDtVx x
  | .ldStVx x => Laws.TableRow.ldStVx x
  | .addI x => Laws.TableRow.addI x
  | .ldF x => Laws.TableRow.ldF x
  | .ldB x => Laws.TableRow.ldB x
  | .ldMemVx x => Laws.TableRow.ldMemVx x
  | .ldVxMem x => Laws.TableRow.ldVxMem x

theorem row_mem_opcodeRows (i : Instr) : i.row ∈ opcodeRows := by
  cases i <;> simp [Instr.row, opcodeRows]

theorem exists_row_of_mem_opcodeRows {r : OpcodeRow} (h : r ∈ opcodeRows) : ∃ j : Instr, j.row = r := by
  simp only [opcodeRows, ← List.map_append, List.mem_map] at h
  obtain ⟨j, -, hj⟩ := h
  exact ⟨j, hj⟩

theorem matchesWord_iff_exists_encode {r : OpcodeRow} (hr : r ∈ opcodeRows) {w : Word} :
    r.matchesWord w = true ↔ ∃ i, encode i = w ∧ i.row = r := by
  obtain ⟨j, rfl⟩ := exists_row_of_mem_opcodeRows hr
  constructor
  · exact exists_encode_of_matches
  · rintro ⟨i, rfl, hi⟩
    exact hi ▸ row_matches_encode i

/-- Settles O4: a row's words are those of its instructions, and every instruction has its row in the table. -/
theorem decoderIsTheOpcodeTable : Obligations.DecoderIsTheOpcodeTable := by
  unfold Obligations.DecoderIsTheOpcodeTable
  refine ⟨rfl, fun w => ⟨fun r hr => ?_, ?_, ?_⟩⟩
  · simp only [decode_eq_ok_iff]
    exact matchesWord_iff_exists_encode hr
  · rintro ⟨u, hu⟩ r hr
    refine Bool.eq_false_iff.2 fun hm => ?_
    obtain ⟨i, hi, -⟩ := (matchesWord_iff_exists_encode hr).1 hm
    rw [← decode_eq_ok_iff, hu] at hi
    cases hi
  · intro hnone
    cases hd : decode w with
    | error u => exact ⟨u, rfl⟩
    | ok i =>
      have hmatch : i.row.matchesWord w = true := decode_eq_ok_iff.1 hd ▸ row_matches_encode i
      exact absurd hmatch (Bool.eq_false_iff.1 (hnone i.row (row_mem_opcodeRows i)))

/-! ### Single words and single bits (R91, R107) -/

/-- Settles O5, by evaluation. -/
theorem sampleWordsDecode : Obligations.SampleWordsDecode := by
  unfold Obligations.SampleWordsDecode
  decide

theorem nnField_eq_append (w : Word) : nnField w = yField w ++ nField w :=
  (BitVec.extractLsb'_append_extractLsb'_eq_extractLsb' (x := w) (start₁ := 0) (len₁ := 4) rfl).symm

theorem nnnField_eq_append (w : Word) : nnnField w = xField w ++ (yField w ++ nField w) := by
  rw [← nnField_eq_append]
  exact (BitVec.extractLsb'_append_extractLsb'_eq_extractLsb' (x := w) (start₁ := 0) (len₁ := 8) rfl).symm

/-- Settles O6: bit `k` of an extracted field is bit `start + k` of the word, inside the field's width. -/
theorem fieldsAreTheBitsOfTheWord : Obligations.FieldsAreTheBitsOfTheWord := by
  unfold Obligations.FieldsAreTheBitsOfTheWord
  intro w
  refine ⟨fun k hk => ?_, fun k hk => ?_, fun k hk => ?_, nnField_eq_append w, nnnField_eq_append w⟩
  · simp [opField, xField, yField, nField, hk]
  · simp [nnField, hk]
  · simp [nnnField, hk]

end Sys2Proof
end

section
/-! SUPPORT. Family 40_cycle_dispatch: what a cycle step and a step are in each of their cases, that they answer a next state, and which instruction may change which component. -/

namespace Sys2Proof.Machine

/-! ### The cycle step and the step, case by case (spec/40_cycle_dispatch.md R120, R121, R125, R128) -/

theorem cycleStep_of_halted {s : State} (h : s.halt ≠ none) : cycleStep s = .next s :=
  if_pos ((State.halted_iff s).2 h)

theorem timerStep_of_halted {s : State} (h : s.halt ≠ none) : timerStep s = s :=
  if_pos ((State.halted_iff s).2 h)

theorem State.not_halted {s : State} (h : s.halt = none) : ¬ s.halted = true :=
  Bool.eq_false_iff.1 ((State.halted_eq_false s).2 h)

/-- A fetch that leaves memory is the fatal condition (R121, R253). -/
theorem cycleStep_of_fetch_outside {s : State} (hrun : s.halt = none) (hpc : 4094 < s.pc.toNat) :
    cycleStep s = .next (s.raise (.addrRangeFetch s.pc)) := by
  rw [cycleStep, if_neg (State.not_halted hrun), State.fetchWord_of_gt s hpc]

theorem cycleStep_of_fetchWord {s : State} {w : Word} (hrun : s.halt = none) (hw : s.fetchWord = some w) :
    cycleStep s = runWord w s := by
  rw [cycleStep, if_neg (State.not_halted hrun), hw]

theorem runWord_of_ok {w : Word} {i : Instr} (h : decode w = .ok i) (s : State) :
    runWord w s = exec i (s.setPc (s.pc + 2)) := by
  rw [runWord, h]
  rfl

theorem runWord_of_error {w : Word} {u : UnknownOpcode} (h : decode w = .error u) (s : State) :
    runWord w s = .next ((s.setPc (s.pc + 2)).note (.unknown s.pc w)) := by
  rw [runWord, h]
  rfl

/-- Where a cycle step comes next, scheduled or not, a step is a cycle step of the machine with the rest of the schedule (R35). -/
theorem step_eq_cycleStep {s : State} (h : s.schedule = [] ∨ s.schedule.head? = some .cycleStep) :
    step s = cycleStep (s.setSchedule s.schedule.tail) := by
  rcases h with h | h
  · have hself : s.setSchedule s.schedule.tail = s := by
      rw [h, List.tail_nil, ← h]
      rfl
    rw [step_of_nil h, hself]
  · exact step_of_cons (List.eq_cons_of_mem_head? h)

/-- Where a word is fetched, a step is what the cycle does with that word (R120). -/
theorem step_of_fetches {s : State} {w : Word} (h : s.Fetches w) :
    step s = runWord w (s.setSchedule s.schedule.tail) := by
  obtain ⟨hnext, hrun, hpc, rfl⟩ := h
  rw [step_eq_cycleStep hnext]
  exact cycleStep_of_fetchWord hrun (State.fetchWord_of_le (s.setSchedule s.schedule.tail) hpc)

/-- Settles O7: the fetched word decodes, so the cycle runs its handler. -/
theorem stepRunsTheDecodedInstruction : Obligations.StepRunsTheDecodedInstruction := by
  unfold Obligations.StepRunsTheDecodedInstruction
  intro s w i hf hi
  exact (step_of_fetches hf).trans (runWord_of_ok hi _)

/-- Settles O8: the fetched word does not decode, so the cycle reports it. -/
theorem unknownWordIsAReportedNoOp : Obligations.UnknownWordIsAReportedNoOp := by
  unfold Obligations.UnknownWordIsAReportedNoOp
  intro s w u hf hu
  exact (step_of_fetches hf).trans (runWord_of_error hu _)

/-- Settles O9: the fetch's range check comes before the advance. -/
theorem fetchBeyondMemoryHalts : Obligations.FetchBeyondMemoryHalts := by
  unfold Obligations.FetchBeyondMemoryHalts
  intro s hnext hrun hpc
  rw [step_eq_cycleStep hnext]
  exact cycleStep_of_fetch_outside (s := s.setSchedule s.schedule.tail) hrun (Nat.lt_of_succ_lt_succ hpc)

/-- Settles O10: both steps test HALT before anything else. -/
theorem haltedMachineDoesNothing : Obligations.HaltedMachineDoesNothing := by
  unfold Obligations.HaltedMachineDoesNothing
  intro s h
  have hcycle := cycleStep_of_halted h
  exact ⟨hcycle, timerStep_of_halted h, fun hsch => (step_of_nil hsch).trans hcycle⟩

/-! ### Every step answers a next state (R129, R306) -/

/-- O15 compares an instruction's two next states, with and without a change of the sound timer; the first of them is the answer. -/
theorem exec_answers_next (i : Instr) (s : State) : ∃ t, exec i s = .next t := by
  obtain ⟨t, -, ht, -⟩ := soundTimerIsNeverRead i s s.st
  exact ⟨t, ht⟩

theorem runWord_answers_next (w : Word) (s : State) : ∃ t, runWord w s = .next t := by
  cases hd : decode w with
  | ok i =>
    rw [runWord_of_ok hd]
    exact exec_answers_next i _
  | error u => exact ⟨_, runWord_of_error hd s⟩

theorem cycleStep_answers_next (s : State) : ∃ t, cycleStep s = .next t := by
  by_cases hrun : s.halt = none
  · rcases Nat.lt_or_ge 4094 s.pc.toNat with hpc | hpc
    · exact ⟨_, cycleStep_of_fetch_outside hrun hpc⟩
    · rw [cycleStep_of_fetchWord hrun (State.fetchWord_of_le s hpc)]
      exact runWord_answers_next _ s
  · exact ⟨s, cycleStep_of_halted hrun⟩

/-- Settles O13: a cycle step does nothing, takes the fetch's fatal condition, reports, or runs a handler, each a next state. -/
theorem everyInstructionAnswersANextState : Obligations.EveryInstructionAnswersANextState := by
  unfold Obligations.EveryInstructionAnswersANextState
  refine ⟨exec_answers_next, fun s hsch => ?_⟩
  rw [step_of_nil hsch]
  exact cycleStep_answers_next s

/-! ### What each instruction may change (R20, R21, R130) -/

/-- The components of the state (R20), each general register one of its own, with the model's own three. -/
inductive Component where
  | mem
  | reg (r : RegIdx)
  | i
  | pc
  | stack
  | dt
  | st
  | fb
  | keys
  | latch
  | halt
  | schedule
  | draws
  | hostLog

/-- The component is not in `t` what it is in `s`. -/
def Component.Differs (c : Component) (s t : State) : Prop :=
  match c with
  | .mem => t.mem ≠ s.mem
  | .reg r => t.getV r ≠ s.getV r
  | .i => t.i ≠ s.i
  | .pc => t.pc ≠ s.pc
  | .stack => t.stack ≠ s.stack
  | .dt => t.dt ≠ s.dt
  | .st => t.st ≠ s.st
  | .fb => t.fb ≠ s.fb
  | .keys => t.keys ≠ s.keys
  | .latch => t.latch ≠ s.latch
  | .halt => t.halt ≠ s.halt
  | .schedule => t.schedule ≠ s.schedule
  | .draws => t.draws ≠ s.draws
  | .hostLog => t.hostLog ≠ s.hostLog

/-- The instruction is one of the component's writers: the table that O14 states, row by row. -/
def Component.WrittenBy (c : Component) (i : Instr) : Prop :=
  match c with
  | .mem => (∃ x, i = .ldB x) ∨ ∃ x, i = .ldMemVx x
  | .reg r => WritesReg r i
  | .i => (∃ nnn, i = .ldI nnn) ∨ (∃ x, i = .addI x) ∨ ∃ x, i = .ldF x
  | .pc => WritesPc i
  | .stack => (∃ nnn, i = .call nnn) ∨ ∃ z, i = .ret z
  | .dt => ∃ x, i = .ldDtVx x
  | .st => ∃ x, i = .ldStVx x
  | .fb => (∃ z, i = .cls z) ∨ ∃ x y n, i = .drw x y n
  | .latch => ∃ x, i = .ldVxK x
  | .halt => (∃ z, i = .ret z) ∨ (∃ x, i = .skp x) ∨ (∃ x, i = .sknp x) ∨ (∃ x y n, i = .drw x y n) ∨
      (∃ x, i = .ldB x) ∨ (∃ x, i = .ldMemVx x) ∨ ∃ x, i = .ldVxMem x
  | .draws => ∃ x nn, i = .rnd x nn
  | .keys | .schedule | .hostLog => False

section
variable {s t : State} {c : Component}

/-! Which components each shared operation changes. -/

theorem eq_halt_of_raise_differs {k : Halt} (hc : c.Differs s (s.raise k)) : c = .halt := by
  cases c with
  | halt => rfl
  | _ => exact absurd rfl hc

theorem eq_pc_of_setPc_differs {w : Word} (hc : c.Differs s (s.setPc w)) : c = .pc := by
  cases c with
  | pc => rfl
  | _ => exact absurd rfl hc

theorem eq_reg_of_writeResult_differs {x : RegIdx} {b : Byte} (h : writeResult x b s = .next t) (hc : c.Differs s t) :
    c = .reg x := by
  cases h
  cases c with
  | reg r => exact congrArg Component.reg (State.eq_of_getV_setV_ne hc)
  | _ => exact absurd rfl hc

theorem reg_of_writeFlagged_differs {x : RegIdx} {b f : Byte} (h : writeFlagged x b f s = .next t) (hc : c.Differs s t) :
    ∃ r, c = .reg r ∧ (r = x ∨ r = 15) := by
  cases h
  cases c with
  | reg r => exact ⟨r, rfl, State.eq_of_getV_setVFlag_ne hc⟩
  | _ => exact absurd rfl hc

theorem eq_pc_of_skipWhen_differs {b : Bool} (h : skipWhen b s = .next t) (hc : c.Differs s t) : c = .pc := by
  rw [skipWhen_eq] at h
  cases h
  exact eq_pc_of_setPc_differs hc

theorem halt_or_pc_of_skipOnKey_differs {b : Bool} {x : RegIdx} (h : skipOnKey b x s = .next t) (hc : c.Differs s t) :
    c = .halt ∨ c = .pc := by
  rcases skipOnKey_cases h with ⟨-, rfl⟩ | ⟨-, rfl⟩
  · exact .inl (eq_halt_of_raise_differs hc)
  · exact .inr (eq_pc_of_setPc_differs hc)

/-- A store that puts back the `I` it had, as both stores do on this hardware (R193, R196). -/
theorem mem_or_halt_of_storeAtIndex_differs {bytes : List Byte} (h : storeAtIndex bytes s.i s = .next t)
    (hc : c.Differs s t) : c = .mem ∨ c = .halt := by
  rcases storeAtIndex_cases h with ⟨-, rfl⟩ | ⟨-, rfl⟩
  · cases c with
    | mem => exact .inl rfl
    | _ => exact absurd rfl hc
  · exact .inr (eq_halt_of_raise_differs hc)

/-- Loading bytes from `V0` on changes no register past the last byte. -/
theorem RegFile.lt_of_get_putBytes_ne {f : RegFile} {bytes : List Byte} {r : RegIdx} (hlen : bytes.length ≤ 16)
    (h : RegFile.get (RegFile.putBytes f 0 bytes) r ≠ RegFile.get f r) : r.toNat < bytes.length := by
  by_contra hr
  exact h ((RegFile.get_putBytes f 0 bytes (by omega) r).trans (dif_neg (by omega)))

theorem reg_or_halt_of_loadRegs_differs {count : Nat} (hcount : count ≤ 16)
    (h : loadRegs Params.memIncrementsI count s = .next t) (hc : c.Differs s t) :
    (∃ r, c = .reg r ∧ r.toNat < count) ∨ c = .halt := by
  rcases loadRegs_cases h with ⟨-, rfl⟩ | ⟨-, rfl⟩
  · cases c with
    | reg r =>
      have hlen := Memory.length_readBytes s.mem s.i.toNat count
      have hr := RegFile.lt_of_get_putBytes_ne (hlen.trans_le hcount) hc
      exact .inl ⟨r, rfl, hlen ▸ hr⟩
    | _ => exact absurd rfl hc
  · exact .inr (eq_halt_of_raise_differs hc)

theorem fb_or_vf_or_halt_of_execDrw_differs {x y : RegIdx} {n : Nibble} (h : execDrw x y n s = .next t)
    (hc : c.Differs s t) : c = .fb ∨ c = .reg 15 ∨ c = .halt := by
  rcases execDrw_cases h with ⟨-, rfl⟩ | ⟨-, rfl⟩
  · cases c with
    | fb => exact .inl rfl
    | reg r => exact .inr (.inl (congrArg Component.reg (State.eq_of_getV_setV_ne hc)))
    | _ => exact absurd rfl hc
  · exact .inr (.inr (eq_halt_of_raise_differs hc))

theorem stack_or_pc_or_halt_of_execRet_differs {z : Nibble} (h : execRet z s = .next t) (hc : c.Differs s t) :
    c = .stack ∨ c = .pc ∨ c = .halt := by
  rcases execRet_cases h with ⟨-, rfl⟩ | ⟨l, w, -, rfl⟩
  · exact .inr (.inr (eq_halt_of_raise_differs hc))
  · cases c with
    | stack => exact .inl rfl
    | pc => exact .inr (.inl rfl)
    | _ => exact absurd rfl hc

theorem reg_or_latch_or_pc_of_ldVxK_differs {x : RegIdx} (h : exec (.ldVxK x) s = .next t) (hc : c.Differs s t) :
    c = .reg x ∨ c = .latch ∨ c = .pc := by
  cases hv : s.latch.valid with
  | true =>
    rw [exec_ldVxK_latched x s hv] at h
    cases h
    cases c with
    | reg r => exact .inl (congrArg Component.reg (State.eq_of_getV_setV_ne hc))
    | latch => exact .inr (.inl rfl)
    | _ => exact absurd rfl hc
  | false =>
    rw [exec_ldVxK_waiting x s hv] at h
    cases h
    exact .inr (.inr (eq_pc_of_setPc_differs hc))

/-- What an instruction changes, it is a writer of. -/
theorem writtenBy_of_exec_differs {i : Instr} (h : exec i s = .next t) (hc : c.Differs s t) : c.WrittenBy i := by
  cases i with
  | ldImm | addImm | ldReg | orReg | andReg | xorReg | ldVxDt =>
    obtain rfl := eq_reg_of_writeResult_differs h hc
    exact rfl
  | addReg | sub | shr | subn | shl =>
    obtain ⟨r, rfl, hr⟩ := reg_of_writeFlagged_differs h hc
    exact hr
  | seImm | sneImm | seReg | sneReg =>
    obtain rfl := eq_pc_of_skipWhen_differs h hc
    simp [Component.WrittenBy, WritesPc]
  | skp | sknp =>
    rcases halt_or_pc_of_skipOnKey_differs h hc with rfl | rfl <;> simp [Component.WrittenBy, WritesPc]
  | jp | jpV0 =>
    cases h
    obtain rfl := eq_pc_of_setPc_differs hc
    simp [Component.WrittenBy, WritesPc]
  | call nnn =>
    cases h
    cases c with
    | stack => exact .inl ⟨nnn, rfl⟩
    | pc => simp [Component.WrittenBy, WritesPc]
    | _ => exact absurd rfl hc
  | ret z =>
    rcases stack_or_pc_or_halt_of_execRet_differs (z := z) h hc with rfl | rfl | rfl <;>
      simp [Component.WrittenBy, WritesPc]
  | cls z =>
    cases h
    cases c with
    | fb => exact .inl ⟨z, rfl⟩
    | _ => exact absurd rfl hc
  | drw =>
    rcases fb_or_vf_or_halt_of_execDrw_differs h hc with rfl | rfl | rfl <;> simp [Component.WrittenBy, WritesReg]
  | rnd x nn =>
    cases h
    cases c with
    | reg r => exact State.eq_of_getV_setV_ne (s := s.consumeDraw) hc
    | draws => exact ⟨x, nn, rfl⟩
    | _ => exact absurd rfl hc
  | ldVxK =>
    rcases reg_or_latch_or_pc_of_ldVxK_differs h hc with rfl | rfl | rfl <;>
      simp [Component.WrittenBy, WritesReg, WritesPc]
  | ldDtVx x =>
    cases h
    cases c with
    | dt => exact ⟨x, rfl⟩
    | _ => exact absurd rfl hc
  | ldStVx x =>
    cases h
    cases c with
    | st => exact ⟨x, rfl⟩
    | _ => exact absurd rfl hc
  | ldI nnn =>
    cases h
    cases c with
    | i => exact .inl ⟨nnn, rfl⟩
    | _ => exact absurd rfl hc
  | addI x =>
    cases h
    cases c with
    | i => exact .inr (.inl ⟨x, rfl⟩)
    | reg r => exact State.eq_of_getV_setV_ne (s := s.setI (s.i + zext8 (s.getV x))) hc
    | _ => exact absurd rfl hc
  | ldF x =>
    cases h
    cases c with
    | i => exact .inr (.inr ⟨x, rfl⟩)
    | _ => exact absurd rfl hc
  | ldB | ldMemVx =>
    rcases mem_or_halt_of_storeAtIndex_differs h hc with rfl | rfl <;> simp [Component.WrittenBy]
  | ldVxMem x =>
    have hcount : countRegs Params.memInclusive x ≤ 16 := (countRegs_bounds x).2.trans (by decide)
    rcases reg_or_halt_of_loadRegs_differs hcount h hc with ⟨r, rfl, hr⟩ | rfl
    · rw [countRegs_eq_ite] at hr
      exact hr
    · simp [Component.WrittenBy]

end

/-- Settles O14: component by component, from the writers of each; KEYS and the host's side have none. -/
theorem eachComponentHasItsOwnWriters : Obligations.EachComponentHasItsOwnWriters := by
  unfold Obligations.EachComponentHasItsOwnWriters
  intro i s t h
  have hw : ∀ c : Component, c.Differs s t → c.WrittenBy i := fun _ => writtenBy_of_exec_differs h
  exact ⟨fun r => hw (.reg r), hw .pc, not_not.1 (hw .keys), not_not.1 (hw .schedule), not_not.1 (hw .hostLog), hw .dt,
    hw .st, hw .stack, hw .latch, hw .mem, hw .fb, hw .i, hw .draws, hw .halt⟩

end Sys2Proof.Machine
end

section
/-! SUPPORT. Family 41_control_flow: what a control transfer leaves alone, the eight control-flow instructions, and `pc` after each instruction. -/

namespace Sys2Proof.Machine

/-! ### Frames -/

/-- Replacing the stack and `pc` touches nothing else. -/
theorem State.setStack_setPc_onlyControl (s : State) (l : List Word) (w : Word) : OnlyControl s ((s.setStack l).setPc w) :=
  ⟨fun _ => rfl, fun _ => rfl, ⟨fun _ _ => rfl, ⟨rfl, rfl⟩, ⟨rfl, rfl⟩, ⟨rfl, rfl, rfl⟩, rfl⟩, rfl⟩

theorem State.setPc_onlyControl (s : State) (w : Word) : OnlyControl s (s.setPc w) :=
  s.setStack_setPc_onlyControl s.stack w

theorem State.raise_onlyHalts (s : State) (k : Halt) : OnlyHalts k s (s.raise k) := ⟨rfl, rfl⟩

/-! ### Jumps, calls and returns (spec/41_control_flow.md R140 to R142, R147) -/

theorem exec_ret_of_concat {s : State} {l : List Word} {w : Word} (z : Nibble) (h : s.stack = l ++ [w]) :
    exec (.ret z) s = .next ((s.setStack l).setPc w) := by
  rw [exec_ret, execRet, State.pop_concat s l w h]

theorem exec_ret_of_nil {s : State} (z : Nibble) (h : s.stack = []) :
    exec (.ret z) s = .next (s.raise (.stackUnderflow (s.pc - 2))) := by
  rw [exec_ret, execRet, State.pop_nil s h]
  rfl

/-- The sum of a 12-bit target and a byte needs no reduction (R147; D13). -/
theorem toNat_zext12_add_zext8 (nnn : Addr12) (b : Byte) : (zext12 nnn + zext8 b).toNat = nnn.toNat + b.toNat := by
  have hn := nnn.isLt
  have hb := b.isLt
  rw [BitVec.toNat_add, toNat_zext12, toNat_zext8]
  omega

/-- Settles O29: both set `pc` to the widened `nnn`, CALL after pushing the `pc` it found. -/
theorem jumpAndCallGoToTheAddress : Obligations.JumpAndCallGoToTheAddress := by
  unfold Obligations.JumpAndCallGoToTheAddress
  intro s nnn
  exact ⟨⟨_, exec_jp nnn s, toNat_zext12 nnn, rfl, s.setPc_onlyControl _⟩,
    ⟨_, exec_call nnn s, toNat_zext12 nnn, rfl, s.setStack_setPc_onlyControl _ _⟩⟩

/-- Settles O30: the pop of a non-empty stack. -/
theorem returnPopsTheNewestEntry : Obligations.ReturnPopsTheNewestEntry := by
  unfold Obligations.ReturnPopsTheNewestEntry
  intro s z l w h
  exact ⟨_, exec_ret_of_concat z h, rfl, rfl, s.setStack_setPc_onlyControl l w⟩

/-- Settles O31: the pop of an empty stack. -/
theorem returnOnEmptyStackHalts : Obligations.ReturnOnEmptyStackHalts := by
  unfold Obligations.ReturnOnEmptyStackHalts
  intro s z h
  exact ⟨_, exec_ret_of_nil z h, s.raise_onlyHalts _⟩

/-- Settles O32: what CALL pushed is the newest entry, and what it found lies below it. -/
theorem returnUndoesCall : Obligations.ReturnUndoesCall := by
  unfold Obligations.ReturnUndoesCall
  intro s t u nnn z hcall hstack
  rw [exec_call] at hcall
  cases hcall
  exact returnPopsTheNewestEntry u z s.stack s.pc hstack

/-- Settles O35: `nnn` is below 0x1000 and `V0` below 0x100, so their sum fits `pc`. -/
theorem jumpWithOffsetAddsV0 : Obligations.JumpWithOffsetAddsV0 := by
  unfold Obligations.JumpWithOffsetAddsV0
  intro s nnn
  have hn := nnn.isLt
  have hv := (s.getV 0).isLt
  have hsum := toNat_zext12_add_zext8 nnn (s.getV 0)
  exact ⟨_, exec_jpV0 nnn s, hsum, hsum.trans_le (by omega), rfl, s.setPc_onlyControl _⟩

/-! ### Skips (spec/41_control_flow.md R143 to R146, spec/45_keys_timers.md R230, R231) -/

section
variable {α : Type} [BEq α] [LawfulBEq α] [DecidableEq α]

/-- A skip's Boolean test of equality, as the statements put it. -/
theorem ite_beq_eq_ite (a b : α) (v w : Word) : (if a == b then v else w) = if a = b then v else w :=
  if_congr beq_iff_eq rfl rfl

/-- A skip's Boolean test of difference, as the statements put it. -/
theorem ite_bne_eq_ite (a b : α) (v w : Word) : (if a != b then v else w) = if a = b then w else v :=
  (if_congr bne_iff_ne rfl rfl).trans (ite_not ..)

end

/-- What a skip with condition `c` does, `v` being the `pc` the condition selects. -/
theorem skipWhen_onlyControl {c : Bool} {s : State} {v : Word} (hv : (if c then s.pc + 2 else s.pc) = v) :
    ∃ t, skipWhen c s = .next t ∧ t.pc = v ∧ t.stack = s.stack ∧ OnlyControl s t :=
  ⟨_, skipWhen_eq c s, hv, rfl, s.setPc_onlyControl _⟩

/-- Settles O34: each of the four is a skip on the equality of two bytes, or on its negation. -/
theorem skipsAddTwoWhenTheConditionHolds : Obligations.SkipsAddTwoWhenTheConditionHolds := by
  unfold Obligations.SkipsAddTwoWhenTheConditionHolds
  intro s x y nn z
  exact ⟨skipWhen_onlyControl (ite_beq_eq_ite ..), skipWhen_onlyControl (ite_bne_eq_ite ..),
    skipWhen_onlyControl (ite_beq_eq_ite ..), skipWhen_onlyControl (ite_bne_eq_ite ..)⟩

/-! ### `pc` after each instruction (spec/41_control_flow.md R148)

In these lemmas the handler starts from `s` with `pc` advanced past address `a`. -/

section
variable {s t : State} {a : Word}

/-- An instruction that does not write `pc` goes on to the next one, whether or not it takes a fatal condition. -/
theorem pc_of_not_writesPc {i : Instr} (hi : ¬ WritesPc i) (h : exec i (s.setPc (a + 2)) = .next t) : t.pc = a + 2 :=
  not_not.1 fun hpc => hi (writtenBy_of_exec_differs (c := .pc) h hpc)

theorem pc_of_skipWhen {c : Bool} (h : skipWhen c (s.setPc (a + 2)) = .next t) : t.pc = if c then a + 4 else a + 2 := by
  rw [skipWhen_eq] at h
  cases h
  rw [State.setPc_pc, State.setPc_pc, BitVec.add_assoc]
  rfl

theorem pc_of_skipOnKey {wanted : Bool} {x : RegIdx} (h : skipOnKey wanted x (s.setPc (a + 2)) = .next t)
    (hrun : t.halt = none) :
    t.pc = if s.keyDown (BitVec.ofNat 4 (s.getV x).toNat) == wanted then a + 4 else a + 2 := by
  rcases skipOnKey_cases h with ⟨-, rfl⟩ | ⟨-, rfl⟩
  · cases hrun
  · rw [BitVec.ofNat_toNat]
    exact pc_of_skipWhen (skipWhen_eq ..)

theorem pc_of_ret {z : Nibble} (h : exec (.ret z) (s.setPc (a + 2)) = .next t) (hrun : t.halt = none) :
    t.pc = s.stack.getLastD 0 := by
  rcases execRet_cases (z := z) h with ⟨-, rfl⟩ | ⟨l, w, hl, rfl⟩
  · cases hrun
  · rw [State.setPc_stack] at hl
    rw [State.setPc_pc, hl, List.getLastD_concat]

theorem pc_of_ldVxK {x : RegIdx} (h : exec (.ldVxK x) (s.setPc (a + 2)) = .next t) :
    t.pc = if s.latch.valid = true then a + 2 else a := by
  cases hv : s.latch.valid with
  | true =>
    rw [exec_ldVxK_latched x (s.setPc (a + 2)) hv] at h
    cases h
    rfl
  | false =>
    rw [exec_ldVxK_waiting x (s.setPc (a + 2)) hv] at h
    cases h
    exact BitVec.add_sub_cancel a 2

end

/-- Settles O12: the instructions that leave the advanced `pc` alone, then each that writes it. -/
theorem pcAfterEachInstruction : Obligations.PcAfterEachInstruction := by
  unfold Obligations.PcAfterEachInstruction
  intro i s t a h hkeep hrun
  change exec i (s.setPc (a + 2)) = .next t at h
  have hgo : t.halt = none := hkeep.trans hrun
  cases i with
  | cls | ldImm | addImm | ldReg | orReg | andReg | xorReg | addReg | sub | shr | subn | shl | rnd | drw
  | ldI | addI | ldF | ldB | ldMemVx | ldVxMem | ldVxDt | ldDtVx | ldStVx =>
    exact pc_of_not_writesPc (by simp [WritesPc]) h
  | ret z => exact pc_of_ret h hgo
  | jp | call => cases h; rfl
  | jpV0 nnn =>
    cases h
    rw [pcAfter, ← toNat_zext12_add_zext8, BitVec.ofNat_toNat, BitVec.setWidth_eq]
    rfl
  | seImm | seReg => exact (pc_of_skipWhen h).trans (ite_beq_eq_ite ..)
  | sneImm | sneReg => exact (pc_of_skipWhen h).trans (ite_bne_eq_ite ..)
  | skp x => exact (pc_of_skipOnKey h hgo).trans (ite_beq_eq_ite ..)
  | sknp x =>
    rw [pc_of_skipOnKey h hgo, pcAfter]
    cases s.keyDown _ <;> rfl
  | ldVxK x => exact pc_of_ldVxK h

end Sys2Proof.Machine
end

section
/-! SUPPORT. Family 42_alu: what a register write leaves alone, the flag bytes as numbers, and the twelve instructions that compute into a register. -/

namespace Sys2Proof.Machine

/-! ### Register writes (spec/10_state.md R21, R22) -/

/-- A register write touches that register only. -/
theorem State.setV_onlyRegs (s : State) (x : RegIdx) (b : Byte) : OnlyRegs (fun r => r = x) s (s.setV x b) :=
  ⟨fun _ hr => s.getV_setV_ne b hr, fun _ => rfl, ⟨fun _ _ => rfl, ⟨rfl, rfl⟩, ⟨rfl, rfl⟩, ⟨rfl, rfl, rfl⟩, rfl⟩,
    rfl, rfl, rfl⟩

/-- A flagged write touches its destination and `VF` only. -/
theorem State.setVFlag_onlyRegs (s : State) (x : RegIdx) (b f : Byte) :
    OnlyRegs (fun r => r = x ∨ r = 15) s (s.setVFlag x b f) := by
  refine ⟨fun r hr => ?_, fun _ => rfl, ⟨fun _ _ => rfl, ⟨rfl, rfl⟩, ⟨rfl, rfl⟩, ⟨rfl, rfl, rfl⟩, rfl⟩, rfl, rfl, rfl⟩
  obtain ⟨hx, hf⟩ := not_or.1 hr
  exact (s.getV_setVFlag x b f r).trans ((if_neg hf).trans (if_neg hx))

theorem State.getV_setVFlag_vf (s : State) (x : RegIdx) (b f : Byte) : (s.setVFlag x b f).getV 15 = f :=
  State.getV_setV_self _ vfIdx f

theorem State.getV_setVFlag_self (s : State) {x : RegIdx} (b f : Byte) (hx : x ≠ 15) : (s.setVFlag x b f).getV x = b :=
  (s.getV_setVFlag x b f x).trans ((if_neg hx).trans (if_pos rfl))

/-! ### The flag bytes (spec/10_state.md R22) -/

theorem flagByte_decide (p : Prop) [Decidable p] : flagByte (decide p) = if p then 1 else 0 :=
  if_congr decide_eq_true_iff rfl rfl

theorem toNat_flagByte (c : Bool) : (flagByte c).toNat = c.toNat := by
  cases c with
  | false => rfl
  | true => rfl

theorem toNat_shrFlag (a : Byte) : (shrFlag a).toNat = a.toNat % 2 :=
  calc (shrFlag a).toNat = (a.toNat.testBit 0).toNat := toNat_flagByte _
    _ = a.toNat / 2 ^ 0 % 2 := Nat.toNat_testBit _ _
    _ = a.toNat % 2 := by rw [pow_zero, Nat.div_one]

/-- Bit 7 is all that is left of a byte above its low seven bits. -/
theorem toNat_shlFlag (a : Byte) : (shlFlag a).toNat = a.toNat / 128 := by
  have ha := a.isLt
  calc (shlFlag a).toNat = (a.toNat.testBit 7).toNat := toNat_flagByte _
    _ = a.toNat / 2 ^ 7 % 2 := Nat.toNat_testBit _ _
    _ = a.toNat / 128 := by omega

/-! ### Subtraction and shifts (spec/42_alu.md R167 to R170) -/

/-- The difference of two bytes is that of their values, modulo 256 (R172). -/
theorem toNat_sub_byte (a b : Byte) : ((a - b).toNat : Int) = (a.toNat - b.toNat : Int) % 256 := by
  have hb := b.isLt
  rw [BitVec.toNat_sub]
  omega

/-- A difference written with its not-borrow flag, whichever operand is subtracted from the other. -/
theorem writeFlagged_sub (x : RegIdx) (a b : Byte) (s : State) :
    ∃ t, writeFlagged x (a - b) (notBorrowFlag a b) s = .next t ∧ t.getV 15 = (if b.toNat ≤ a.toNat then 1 else 0) ∧
      (x ≠ 15 → ((t.getV x).toNat : Int) = (a.toNat - b.toNat : Int) % 256) ∧ OnlyRegs (fun r => r = x ∨ r = 15) s t := by
  refine ⟨_, rfl, (s.getV_setVFlag_vf ..).trans (flagByte_decide _), fun hx => ?_, s.setVFlag_onlyRegs ..⟩
  rw [s.getV_setVFlag_self _ _ hx]
  exact toNat_sub_byte a b

/-- Settles O40: SUB and SUBN are one flagged difference, with the operands exchanged. -/
theorem subtractsFlagNoBorrow : Obligations.SubtractsFlagNoBorrow := by
  unfold Obligations.SubtractsFlagNoBorrow
  intro s x y
  exact ⟨writeFlagged_sub x (s.getV x) (s.getV y) s, writeFlagged_sub x (s.getV y) (s.getV x) s⟩

/-- Settles O41: both shift `Vx` whatever `y` is; a shift by one is a halving, or a doubling modulo 256. -/
theorem shiftsMoveOneBitIntoTheFlag : Obligations.ShiftsMoveOneBitIntoTheFlag := by
  unfold Obligations.ShiftsMoveOneBitIntoTheFlag
  intro s x y
  constructor
  · refine ⟨_, exec_shr x y s, ?_, fun hx => ?_, s.setVFlag_onlyRegs ..⟩
    · rw [s.getV_setVFlag_vf, toNat_shrFlag]
    · rw [s.getV_setVFlag_self _ _ hx, BitVec.toNat_ushiftRight, Nat.shiftRight_one]
  · refine ⟨_, exec_shl x y s, ?_, fun hx => ?_, s.setVFlag_onlyRegs ..⟩
    · rw [s.getV_setVFlag_vf, toNat_shlFlag]
    · rw [s.getV_setVFlag_self _ _ hx, BitVec.toNat_shiftLeft, Nat.shiftLeft_eq, pow_one]

/-! ### Loads, sums and logic (spec/42_alu.md R160 to R166) -/

/-- Settles O36: each is one register write. -/
theorem loadsPutTheValueInVx : Obligations.LoadsPutTheValueInVx := by
  unfold Obligations.LoadsPutTheValueInVx
  intro s x y nn
  exact ⟨⟨_, exec_ldImm x nn s, s.getV_setV_self x _, s.setV_onlyRegs x _⟩,
    ⟨_, exec_ldReg x y s, s.getV_setV_self x _, s.setV_onlyRegs x _⟩⟩

/-- Settles O37: the 8-bit sum is the sum modulo 256, and the write is one without a flag. -/
theorem addImmediateWrapsWithoutFlag : Obligations.AddImmediateWrapsWithoutFlag := by
  unfold Obligations.AddImmediateWrapsWithoutFlag
  intro s x nn
  refine ⟨_, exec_addImm x nn s, ?_, s.setV_onlyRegs x _⟩
  rw [s.getV_setV_self, BitVec.toNat_add]

/-- Settles O38: each writes one word operation, which acts on every bit alone, without a flag. -/
theorem logicIsBitwiseWithoutFlag : Obligations.LogicIsBitwiseWithoutFlag := by
  unfold Obligations.LogicIsBitwiseWithoutFlag
  intro s x y
  refine ⟨⟨_, exec_orReg x y s, fun k _ => ?_, s.setV_onlyRegs x _⟩,
    ⟨_, exec_andReg x y s, fun k _ => ?_, s.setV_onlyRegs x _⟩, ⟨_, exec_xorReg x y s, fun k _ => ?_, s.setV_onlyRegs x _⟩⟩
  · rw [s.getV_setV_self, BitVec.getLsbD_or]
  · rw [s.getV_setV_self, BitVec.getLsbD_and]
  · rw [s.getV_setV_self, BitVec.getLsbD_xor]

/-- Settles O39: the 8-bit sum into `Vx`, then the carry flag into `VF`. -/
theorem addRegistersCarries : Obligations.AddRegistersCarries := by
  unfold Obligations.AddRegistersCarries
  intro s x y
  refine ⟨_, exec_addReg x y s, (s.getV_setVFlag_vf ..).trans (flagByte_decide _), fun hx => ?_, s.setVFlag_onlyRegs ..⟩
  rw [s.getV_setVFlag_self _ _ hx, BitVec.toNat_add]

/-! ### The random byte (spec/42_alu.md R171) -/

/-- Settles O42: consuming the draw changes the count alone, and the write that follows changes `Vx` alone. -/
theorem randomIsMaskedByTheImmediate : Obligations.RandomIsMaskedByTheImmediate := by
  unfold Obligations.RandomIsMaskedByTheImmediate
  intro s x nn
  have hx := s.consumeDraw.getV_setV_self x (Config.randomByte s.draws &&& nn)
  obtain ⟨hregs, hmem, ⟨hfb, htimers, hinputs, ⟨hschedule, -, hlog⟩, hhalt⟩, hi, hstack, hpc⟩ :=
    s.consumeDraw.setV_onlyRegs x (Config.randomByte s.draws &&& nn)
  refine ⟨_, exec_rnd x nn s, hx, fun k hk => ?_, rfl, hregs, hmem, hfb, htimers, hinputs, hschedule, hlog, hhalt, hi, hstack,
    hpc⟩
  rw [hx, BitVec.getLsbD_and, hk, Bool.and_false]

end Sys2Proof.Machine
end

section
/-! SUPPORT. Family 43_index_memory: what the index instructions leave alone, the font, what a store and a load through `I` do, and the six instructions. -/

namespace Sys2Proof.Machine

/-! ### Frames -/

/-- Memory, the registers and `I` are no devices: replacing any of them keeps all of those. -/
theorem State.setMem_setRegs_setI_keepDevices (s : State) (m : Memory) (f : RegFile) (w : Word) :
    KeepDevices s (((s.setMem m).setRegs f).setI w) :=
  ⟨fun _ _ => rfl, ⟨rfl, rfl⟩, ⟨rfl, rfl⟩, ⟨rfl, rfl, rfl⟩, rfl⟩

theorem State.setI_keepDevices (s : State) (w : Word) : KeepDevices s (s.setI w) :=
  s.setMem_setRegs_setI_keepDevices s.mem s.v w

/-! ### Setting `I` (spec/43_index_memory.md R190 to R192) -/

/-- Settles O43: the word is the one that encodes the instruction, and a 12-bit address is below 4096. -/
theorem loadIndexSetsI : Obligations.LoadIndexSetsI := by
  unfold Obligations.LoadIndexSetsI
  intro s nnn
  have hi : (s.setI (zext12 nnn)).i.toNat = nnn.toNat := toNat_zext12 nnn
  have hn := nnn.isLt
  exact ⟨decodeOfEncodeIsTheInstruction (.ldI nnn), _, exec_ldI nnn s, hi, inRange_of_le (by omega), fun _ => rfl,
    fun _ => rfl, s.setI_keepDevices _, rfl, rfl⟩

/-- Settles O44: `VF` is the only register written, after the sum that the old `VF` may be part of. -/
theorem addToIndexFlagsTheCrossing : Obligations.AddToIndexFlagsTheCrossing := by
  unfold Obligations.AddToIndexFlagsTheCrossing
  intro s x
  have hsum : (s.i + zext8 (s.getV x)).toNat = (s.i.toNat + (s.getV x).toNat) % 65536 := by
    rw [BitVec.toNat_add, toNat_zext8]
  exact ⟨_, exec_addI x s, hsum, (State.getV_setV_self _ vfIdx _).trans (flagByte_decide _),
    fun _ hr => State.getV_setV_ne _ _ hr, fun _ => rfl, s.setMem_setRegs_setI_keepDevices s.mem _ _, rfl, rfl⟩

/-- Five times a byte needs no reduction (R192). -/
theorem toNat_zext8_mul_five (b : Byte) : (zext8 b * 5).toNat = b.toNat * 5 := by
  have hb := b.isLt
  have hfive : (5 : Word).toNat = 5 := rfl
  rw [BitVec.toNat_mul, toNat_zext8, hfive]
  omega

/-- Reset memory holds the font from address 0 on (R81, R82). -/
theorem Memory.readBytes_nil_eq_font {base count : Nat} (h : base + count ≤ 80) :
    Memory.readBytes [] base count = (Params.font.drop base).take count := by
  have hlen : Params.font.length = 80 := rfl
  refine List.ext_getElem ?_ fun k hk _ => ?_
  · rw [Memory.length_readBytes, List.length_take, List.length_drop]
    omega
  · rw [Memory.length_readBytes] at hk
    rw [Memory.getElem_readBytes, List.getElem_take, List.getElem_drop]
    exact List.getD_eq_getElem Params.font 0 (by omega)

/-- Settles O45: the product fits 16 bits, and a digit's five bytes lie in the font. -/
theorem fontAddressIsFiveTimesVx : Obligations.FontAddressIsFiveTimesVx := by
  unfold Obligations.FontAddressIsFiveTimesVx
  intro s x
  have hi : (s.setI (zext8 (s.getV x) * 5)).i.toNat = (s.getV x).toNat * 5 := toNat_zext8_mul_five _
  refine ⟨_, exec_ldF x s, hi, fun hdigit hmem => ?_, fun _ => rfl, fun _ => rfl, s.setI_keepDevices _, rfl, rfl⟩
  rw [hi, State.setI_mem, hmem]
  exact Memory.readBytes_nil_eq_font (by omega)

/-! ### Storing at `I` (spec/43_index_memory.md R193, R194) -/

/-- A store through `I` that fits and puts back the `I` it had: the bytes stand at `I` and up, and nothing else changes. -/
theorem storeAtIndex_stores {s : State} {bytes : List Byte} (hwf : Memory.wf s.mem = true)
    (hfit : s.i.toNat + bytes.length ≤ 4096) :
    ∃ t, storeAtIndex bytes s.i s = .next t ∧
      (∀ k (hk : k < bytes.length), Memory.read t.mem (s.i.toNat + k) = bytes[k]) ∧
      KeepMemOutside s.i.toNat bytes.length s t ∧ KeepRegs s t ∧ KeepDevices s t ∧ t.i = s.i ∧ t.stack = s.stack ∧
      t.pc = s.pc :=
  ⟨_, storeAtIndex_inRange (inRange_of_le hfit), Memory.read_writeBytes hwf hfit,
    Memory.read_writeBytes_outside s.mem _ bytes, fun _ => rfl, s.setMem_setRegs_setI_keepDevices _ s.v s.i, rfl, rfl, rfl⟩

/-- A number below 256 fits a byte. -/
theorem toNat_ofNat_byte {n : Nat} (h : n < 256) : (BitVec.ofNat 8 n).toNat = n :=
  (BitVec.toNat_ofNat n 8).trans (Nat.mod_eq_of_lt h)

/-- Settles O46: a store of the three digits, each small enough for the byte it is stored in. -/
theorem decimalDigitsAreStored : Obligations.DecimalDigitsAreStored := by
  unfold Obligations.DecimalDigitsAreStored
  intro s x hwf hi
  have hv := (s.getV x).isLt
  have hlen : (decimalDigits (s.getV x)).length = 3 := rfl
  obtain ⟨t, ht, hread, hkeep⟩ := storeAtIndex_stores (bytes := decimalDigits (s.getV x)) hwf (by omega)
  have hhundreds : (Memory.read t.mem s.i.toNat).toNat = (s.getV x).toNat / 100 :=
    (congrArg BitVec.toNat (hread 0 (by omega))).trans (toNat_ofNat_byte (by omega))
  have htens : (Memory.read t.mem (s.i.toNat + 1)).toNat = (s.getV x).toNat / 10 % 10 :=
    (congrArg BitVec.toNat (hread 1 (by omega))).trans (toNat_ofNat_byte (by omega))
  have hones : (Memory.read t.mem (s.i.toNat + 2)).toNat = (s.getV x).toNat % 10 :=
    (congrArg BitVec.toNat (hread 2 (by omega))).trans (toNat_ofNat_byte (by omega))
  exact ⟨t, ht, by omega, by omega, by omega, by omega, hkeep⟩

/-- Settles O47: a store of the first registers, byte `r` being register `r`. -/
theorem dumpStoresTheFirstRegisters : Obligations.DumpStoresTheFirstRegisters := by
  unfold Obligations.DumpStoresTheFirstRegisters
  intro s x c hwf hc hfit
  rw [← countRegs_eq_ite] at hc
  subst hc
  have hlen := RegFile.length_prefixBytes s.v (countRegs Params.memInclusive x)
  obtain ⟨t, ht, hread, hmem, hkeep⟩ := storeAtIndex_stores hwf (hlen.symm ▸ hfit)
  refine ⟨t, ht, fun r hr => ?_, hlen ▸ hmem, hkeep⟩
  rw [hread r.toNat (by omega), RegFile.getElem_prefixBytes, BitVec.ofNat_toNat, BitVec.setWidth_eq]
  rfl

/-! ### Loading from `I` (spec/43_index_memory.md R195) -/

/-- A load of at most 16 registers that fits: each takes the byte at its place from `I` on, and nothing else changes. -/
theorem loadRegs_fills {s : State} {count : Nat} (hcount : count ≤ 16) (hfit : s.i.toNat + count ≤ 4096) :
    ∃ t, loadRegs Params.memIncrementsI count s = .next t ∧
      (∀ r : RegIdx, r.toNat < count → t.getV r = Memory.read s.mem (s.i.toNat + r.toNat)) ∧
      OnlyRegs (fun r => r.toNat < count) s t := by
  have hlen := Memory.length_readBytes s.mem s.i.toNat count
  have hget := RegFile.get_putBytes s.v 0 (s.mem.readBytes s.i.toNat count) (by omega)
  refine ⟨_, loadRegs_inRange (inRange_of_le hfit), fun r hr => ?_, fun r hr => ?_, fun _ => rfl,
    s.setMem_setRegs_setI_keepDevices s.mem _ _, rfl, rfl, rfl⟩
  · exact (hget r).trans ((dif_pos (by omega)).trans (Memory.getElem_readBytes ..))
  · exact (hget r).trans (dif_neg (by omega))

/-- Settles O48: a load of at most 15 registers, none of them `VF`. -/
theorem loadFillsTheFirstRegisters : Obligations.LoadFillsTheFirstRegisters := by
  unfold Obligations.LoadFillsTheFirstRegisters
  intro s x c hc hfit
  rw [← countRegs_eq_ite] at hc
  subst hc
  exact loadRegs_fills ((countRegs_bounds x).2.trans (by decide)) hfit

/-- Settles O50: the load reads at `I` what the dump stored there, and the dump left `I` where it was. -/
theorem loadUndoesDump : Obligations.LoadUndoesDump := by
  unfold Obligations.LoadUndoesDump
  intro s t u x hwf hfit hdump hmem hi
  obtain ⟨_, ht, hstored, -, -, -, hti, -⟩ := dumpStoresTheFirstRegisters s x _ hwf rfl hfit
  cases hdump.symm.trans ht
  rw [hti] at hi
  obtain ⟨v, hv, hloaded, hothers, -⟩ := loadFillsTheFirstRegisters u x _ rfl (hi ▸ hfit)
  refine ⟨v, hv, fun r => ?_⟩
  by_cases hr : r.toNat < if x = 0 then 1 else x.toNat
  · rw [if_pos hr, hloaded r hr, hmem, hi, hstored r hr]
  · rw [if_neg hr, hothers r hr]

end Sys2Proof.Machine
end

section
/-! SUPPORT. Family 44_display: what the two instructions that write the framebuffer leave alone, what a drawn sprite does to pixels and flag, and the three statements. -/

namespace Sys2Proof.Machine

/-! ### Frames -/

/-- Replacing the framebuffer and the registers leaves everything else as it was. -/
theorem State.setFb_setRegs_keeps (s : State) (fb : Framebuffer) (f : RegFile) :
    KeepMem s ((s.setFb fb).setRegs f) ∧ KeepTimers s ((s.setFb fb).setRegs f) ∧ KeepInputs s ((s.setFb fb).setRegs f) ∧
      KeepOwn s ((s.setFb fb).setRegs f) ∧ ((s.setFb fb).setRegs f).halt = s.halt ∧ ((s.setFb fb).setRegs f).i = s.i ∧
      ((s.setFb fb).setRegs f).stack = s.stack ∧ ((s.setFb fb).setRegs f).pc = s.pc :=
  ⟨fun _ => rfl, ⟨rfl, rfl⟩, ⟨rfl, rfl⟩, ⟨rfl, rfl, rfl⟩, rfl, rfl, rfl, rfl⟩

/-- Settles O51: one replacement of the framebuffer by the cleared one, whatever the ignored field. -/
theorem clearTurnsEveryPixelOff : Obligations.ClearTurnsEveryPixelOff := by
  unfold Obligations.ClearTurnsEveryPixelOff
  intro s z
  exact ⟨_, exec_cls z s, Framebuffer.pixel_clear, fun _ => rfl, s.setFb_setRegs_keeps Framebuffer.clear s.v⟩

/-! ### The pixels a sprite covers (spec/44_display.md R211 to R213) -/

/-- Both coordinates are reduced, so a sprite covers no pixel off the screen (R213). -/
theorem SpriteCovers.onScreen {s : State} {vx vy : Byte} {n r c : Nat} (h : SpriteCovers s vx vy n r c) :
    r < 32 ∧ c < 64 := by
  obtain ⟨row, col, -, -, -, rfl, rfl⟩ := h
  exact ⟨Nat.mod_lt _ (by decide), Nat.mod_lt _ (by decide)⟩

/-- What a sprite covers depends on memory and `I` alone. -/
theorem spriteCovers_congr {s t : State} (hmem : KeepMem s t) (hi : t.i = s.i) {vx vy : Byte} {n r c : Nat} :
    SpriteCovers t vx vy n r c ↔ SpriteCovers s vx vy n r c := by
  unfold SpriteCovers
  simp only [hi, hmem _]

/-- Drawing the sprite at `I` flips exactly the pixels it covers, and raises `VF` exactly where one of those was on:
a nibble's worth of rows never names a pixel twice (R211, R214, R215). -/
theorem drawRows_spec {s t : State} {vx vy : Byte} {n : Nibble}
    (ht : t = drawRows vx vy (s.mem.readBytes s.i.toNat n.toNat) s) :
    (∀ r c, r < 32 → c < 64 → (Framebuffer.pixel t.fb r c = true ↔
      ¬ (Framebuffer.pixel s.fb r c = true ↔ SpriteCovers s vx vy n.toNat r c))) ∧
    (t.getV 15 = 1 ↔ ∃ r c, SpriteCovers s vx vy n.toNat r c ∧ Framebuffer.pixel s.fb r c = true) := by
  subst ht
  have hn := n.isLt
  have hnodup := nodup_spritePixels vx vy (s.mem.readBytes s.i.toNat n.toNat) (by rw [Memory.length_readBytes]; omega)
  obtain ⟨hpixels, hcollision⟩ := togglePixels_spec _ s.fb false hnodup fun _ hp => (spriteCovers_iff.2 hp).onScreen
  constructor
  · intro r c hr hc
    refine (Bool.eq_iff_iff.1 (hpixels r c hr hc)).trans ?_
    rw [Bool.xor_iff_ne, spriteCovers_iff, ne_eq, Bool.eq_iff_iff, decide_eq_true_iff]
  · have hflag : (drawRows vx vy (s.mem.readBytes s.i.toNat n.toNat) s).getV 15 =
        flagByte (togglePixels (spritePixels vx vy (s.mem.readBytes s.i.toNat n.toNat)) s.fb false).2 :=
      State.getV_setV_self _ vfIdx _
    simp only [hflag, flagByte_eq_one, hcollision, Bool.false_eq_true, false_or, spriteCovers_iff]

/-! ### Drawing (spec/44_display.md R211 to R215) -/

/-- A sprite of no rows is always in range (R215). -/
theorem State.sprite_inRange {s : State} {n : Nibble} (h : n = 0 ∨ s.i.toNat + n.toNat ≤ 4096) :
    inRange s.indexBase n.toNat = true := by
  rcases h with rfl | h
  · exact inRange_zero _
  · exact inRange_of_le h

/-- Settles O52: in range, DRW draws the rows at `I`, then writes a flag byte to `VF`. -/
theorem drawTogglesTheSpritesPixels : Obligations.DrawTogglesTheSpritesPixels := by
  unfold Obligations.DrawTogglesTheSpritesPixels
  intro s x y n h
  obtain ⟨hpixels, hflag⟩ := drawRows_spec (s := s) (vx := s.getV x) (vy := s.getV y) (n := n) rfl
  exact ⟨_, execDrw_inRange (State.sprite_inRange h), hpixels, hflag, State.getV_vf_of_flagByte _ _,
    fun _ hr => State.getV_setV_ne _ _ hr, s.setFb_setRegs_keeps _ _⟩

/-- Settles O53: the second draw reads the same rows at the same coordinates, and flipping twice is flipping nothing; the
pixels it turns off are those that were off before the first. -/
theorem drawingTwiceRestoresTheScreen : Obligations.DrawingTwiceRestoresTheScreen := by
  unfold Obligations.DrawingTwiceRestoresTheScreen
  intro s t x y n hx hy hfit hdraw
  obtain ⟨_, ht, hfirst, -, -, hregs, hmem, -, -, -, -, hi, -⟩ := drawTogglesTheSpritesPixels s x y n hfit
  cases hdraw.symm.trans ht
  obtain ⟨u, hu, hsecond, hflag, -⟩ := drawTogglesTheSpritesPixels t x y n (hi.symm ▸ hfit)
  simp only [hregs x hx, hregs y hy, spriteCovers_congr hmem hi] at hsecond hflag
  refine ⟨u, hu, Framebuffer.ext_pixel fun r c => ?_,
    hflag.trans (exists₂_congr fun r c => and_congr_right fun hcovers => ?_)⟩
  · have hr : r % 32 < 32 := Nat.mod_lt _ (by decide)
    have hc : c % 64 < 64 := Nat.mod_lt _ (by decide)
    rw [← u.fb.pixel_mod, ← s.fb.pixel_mod, Bool.eq_iff_iff, hsecond _ _ hr hc, hfirst _ _ hr hc, not_iff, not_not, iff_assoc]
    exact iff_comm
  · obtain ⟨hr, hc⟩ := hcovers.onScreen
    rw [hfirst r c hr hc, iff_true_right hcovers, Bool.not_eq_true]

end Sys2Proof.Machine
end

section
/-! SUPPORT. Family 45_keys_timers: the key wait, a machine whose step answers the machine itself, the two key skips, the timer moves and the latch. -/

namespace Sys2Proof.Machine

/-! ### Waiting for a key (spec/45_keys_timers.md R235) -/

/-- A state that a step leaves as it is stays so through any number of steps. -/
theorem run_of_step_eq_self {M : Host.Core} {s : M.State} (h : M.step s = .next s) (k : Nat) : M.run k s = .next s := by
  induction k with
  | zero => rfl
  | succ k ih =>
    rw [Host.Core.run, h]
    exact ih

/-- LD Vx,K without a release takes back the advance past it, so that the step ends where it began. -/
theorem exec_ldVxK_of_advanced {s : State} (x : RegIdx) (h : s.latch.valid = false) :
    exec (.ldVxK x) (s.setPc (s.pc + 2)) = .next s := by
  rw [exec_ldVxK_waiting x (s.setPc (s.pc + 2)) h, State.setPc_pc, BitVec.add_sub_cancel]
  rfl

/-- One waiting step (R120, R235). -/
theorem step_of_waiting {s : State} {w : Word} {x : RegIdx} (hsch : s.schedule = []) (hf : s.Fetches w)
    (hd : decode w = .ok (.ldVxK x)) (hl : s.latch.valid = false) : step s = .next s := by
  obtain ⟨-, hrun, hpc, rfl⟩ := hf
  rw [step_of_nil hsch, cycleStep_of_fetchWord hrun (State.fetchWord_of_le s hpc), runWord_of_ok hd]
  exact exec_ldVxK_of_advanced x hl

/-- Settles O58: by induction on the number of steps, each of which is the same waiting step. -/
theorem keyWaitWaitsForever : Obligations.KeyWaitWaitsForever := by
  unfold Obligations.KeyWaitWaitsForever
  intro s w x k hsch hf hd hl
  exact run_of_step_eq_self (M := core) (step_of_waiting hsch hf hd hl) k

/-- Taking the key out of the latch changes the latch and `Vx` only, and of the latch only `valid`. -/
theorem State.setV_setLatch_keeps (s : State) (x : RegIdx) (b : Byte) (l : Latch) :
    KeepRegsBut (fun r => r = x) s ((s.setV x b).setLatch l) ∧ KeepMem s ((s.setV x b).setLatch l) ∧
      KeepFb s ((s.setV x b).setLatch l) ∧ KeepTimers s ((s.setV x b).setLatch l) ∧ KeepOwn s ((s.setV x b).setLatch l) ∧
      ((s.setV x b).setLatch l).halt = s.halt ∧ ((s.setV x b).setLatch l).i = s.i ∧
      ((s.setV x b).setLatch l).stack = s.stack ∧ ((s.setV x b).setLatch l).pc = s.pc :=
  ⟨fun _ hr => s.getV_setV_ne b hr, fun _ => rfl, fun _ _ => rfl, ⟨rfl, rfl⟩, ⟨rfl, rfl, rfl⟩, rfl, rfl, rfl, rfl⟩

/-- Settles O57: the two branches of LD Vx,K, on the latch's valid bit. -/
theorem keyWaitConsumesTheRelease : Obligations.KeyWaitConsumesTheRelease := by
  unfold Obligations.KeyWaitConsumesTheRelease
  intro s x
  constructor
  · intro hl
    have hkey : (((s.setV x (zext4 s.latch.key)).setLatch ⟨false, s.latch.key⟩).getV x).toNat = s.latch.key.toNat := by
      rw [State.getV_setLatch, State.getV_setV_self, toNat_zext4]
    exact ⟨_, exec_ldVxK_latched x s hl, hkey, rfl, rfl, rfl, s.setV_setLatch_keeps x _ _⟩
  · intro hl
    exact ⟨_, exec_ldVxK_waiting x s hl, rfl, rfl, s.setPc_onlyControl _⟩

/-! ### The key skips (spec/45_keys_timers.md R230, R231, R236) -/

/-- A register that holds a key's number names that key (R230, R231). -/
theorem skipOnKey_of_key {s : State} {x : RegIdx} {k : Nibble} (h : (s.getV x).toNat = k.toNat) (wanted : Bool) :
    skipOnKey wanted x s = skipWhen (s.keyDown k == wanted) s := by
  have hin : ¬ 15 < (s.getV x).toNat := by
    have := k.isLt
    omega
  have hk : (s.getV x).setWidth 4 = k := by rw [← BitVec.ofNat_toNat, h, BitVec.ofNat_toNat, BitVec.setWidth_eq]
  rw [skipOnKey, if_neg hin, hk]

/-- A register above 15 names no key (R236, R255; D9). -/
theorem skipOnKey_onlyHalts {s : State} {x : RegIdx} (h : 15 < (s.getV x).toNat) (wanted : Bool) :
    ∃ t, skipOnKey wanted x s = .next t ∧ OnlyHalts (.keyIndex (s.pc - 2) (s.getV x)) s t :=
  ⟨_, if_pos h, s.raise_onlyHalts _⟩

/-- A skip's Boolean test for a key that is up, as the statements put it. -/
theorem ite_beq_false_eq_ite (b : Bool) (v w : Word) : (if b == false then v else w) = if b = true then w else v := by
  cases b <;> rfl

/-- Settles O54: the named key's state is what SKP tests, and its negation is what SKNP tests. -/
theorem keySkipsFollowTheKey : Obligations.KeySkipsFollowTheKey := by
  unfold Obligations.KeySkipsFollowTheKey
  intro s x k h
  rw [exec_skp, exec_sknp, skipOnKey_of_key h, skipOnKey_of_key h]
  exact ⟨skipWhen_onlyControl (ite_beq_eq_ite ..), skipWhen_onlyControl (ite_beq_false_eq_ite ..)⟩

/-- Settles O55: both skips test the register before they look at a key. -/
theorem keyIndexAboveFifteenHalts : Obligations.KeyIndexAboveFifteenHalts := by
  unfold Obligations.KeyIndexAboveFifteenHalts
  intro s x h
  exact ⟨skipOnKey_onlyHalts h true, skipOnKey_onlyHalts h false⟩

/-! ### The timer moves (spec/45_keys_timers.md R232 to R234) -/

/-- Setting both timers leaves everything else as it was. -/
theorem State.setDt_setSt_keeps (s : State) (d b : Byte) :
    KeepRegs s ((s.setDt d).setSt b) ∧ KeepMem s ((s.setDt d).setSt b) ∧ KeepFb s ((s.setDt d).setSt b) ∧
      KeepInputs s ((s.setDt d).setSt b) ∧ KeepOwn s ((s.setDt d).setSt b) ∧ ((s.setDt d).setSt b).halt = s.halt ∧
      ((s.setDt d).setSt b).i = s.i ∧ ((s.setDt d).setSt b).stack = s.stack ∧ ((s.setDt d).setSt b).pc = s.pc :=
  ⟨fun _ => rfl, fun _ => rfl, fun _ _ => rfl, ⟨rfl, rfl⟩, ⟨rfl, rfl, rfl⟩, rfl, rfl, rfl, rfl⟩

/-- Settles O56: one register write, and two writes of one timer each, the other timer written with what it holds. -/
theorem timerMoves : Obligations.TimerMoves := by
  unfold Obligations.TimerMoves
  intro s x
  exact ⟨⟨_, exec_ldVxDt x s, s.getV_setV_self x _, s.setV_onlyRegs x _⟩,
    ⟨_, exec_ldDtVx x s, rfl, rfl, s.setDt_setSt_keeps (s.getV x) s.st⟩,
    ⟨_, exec_ldStVx x s, rfl, rfl, s.setDt_setSt_keeps s.dt (s.getV x)⟩⟩

end Sys2Proof.Machine
end

section
/-! SUPPORT. Family 60_exceptions: any number of timer steps at once, one scheduled timer step, and CALL on a stack of finite depth. -/

namespace Sys2Proof.Machine

/-! ### Timer steps (spec/60_exceptions.md R264, R265) -/

/-- `k` decrements of one timer as a number (R265). -/
theorem toNat_iterate_countDown (k : Nat) (b : Byte) : (countDown^[k] b).toNat = b.toNat - k := by
  induction k with
  | zero => rfl
  | succ k ih => rw [Function.iterate_succ_apply', toNat_countDown, ih, Nat.sub_sub]

/-- `k` timer steps decrement each timer `k` times, on its own, and leave the machine running. -/
theorem iterate_timerStep_of_running {s : State} (h : s.halt = none) (k : Nat) :
    timerStep^[k] s = (s.setDt (countDown^[k] s.dt)).setSt (countDown^[k] s.st) := by
  induction k with
  | zero => rfl
  | succ k ih =>
    simp only [Function.iterate_succ_apply', ih]
    exact timerStep_of_running h

/-- Settles O27: the timers after `k` steps are `k` decrements each, and each decrement subtracts 1 down to 0. -/
theorem timersSaturateAtZero : Obligations.TimersSaturateAtZero := by
  unfold Obligations.TimersSaturateAtZero
  intro k s h
  rw [iterate_timerStep_of_running h]
  exact ⟨toNat_iterate_countDown k s.dt, toNat_iterate_countDown k s.st, rfl⟩

/-- Settles O26: the scheduled event is one timer step of the machine with the rest of the schedule. -/
theorem timerStepCountsDownToZero : Obligations.TimerStepCountsDownToZero := by
  unfold Obligations.TimerStepCountsDownToZero
  intro s rest hsch h
  have hstep : step s = .next (timerStep (s.setSchedule rest)) := step_of_cons hsch
  rw [timerStep_of_running (s := s.setSchedule rest) h] at hstep
  exact ⟨_, hstep, toNat_countDown s.dt, toNat_countDown s.st, rfl⟩

/-! ### CALL on a stack of finite depth (spec/60_exceptions.md R256; D17) -/

theorem stackFull_some (n : Nat) (l : List Word) : stackFull (some n) l = true ↔ n ≤ l.length := decide_eq_true_iff

/-- No room for the return address (R256). -/
theorem callWithDepth_of_full {depth : Nat} {s : State} (nnn : Addr12) (h : depth ≤ s.stack.length) :
    callWithDepth (some depth) nnn s = .next (s.raise (.stackOverflow (s.pc - 2))) :=
  if_pos ((stackFull_some depth s.stack).2 h)

/-- Room for one more entry, so the depth plays no part (R142). -/
theorem callWithDepth_of_room {depth : Nat} {s : State} (nnn : Addr12) (h : s.stack.length < depth) :
    callWithDepth (some depth) nnn s = .next ((s.setStack (s.stack ++ [s.pc])).setPc (zext12 nnn)) :=
  if_neg (mt (stackFull_some depth s.stack).1 (Nat.not_le_of_lt h))

/-- Settles O33: the two branches of CALL at a finite depth, the second of them the CALL of this hardware. -/
theorem finiteStackOverflows : Obligations.FiniteStackOverflows := by
  unfold Obligations.FiniteStackOverflows
  intro s nnn depth
  constructor
  · intro h
    exact ⟨_, callWithDepth_of_full nnn h, s.raise_onlyHalts _⟩
  · intro h
    rw [callWithDepth_of_room nnn h, exec_call]

end Sys2Proof.Machine
end

section
/-! SUPPORT. Family 70_reset_and_hazards: the scheduled reset, and the machine parked at a jump to itself. -/

namespace Sys2Proof.Machine

/-! ### The reset event (spec/70_reset_and_hazards.md R290) -/

/-- The event ends in the reset state, whatever the machine was before it. -/
theorem State.atReset_resetEvent (s : State) : s.resetEvent.atReset = true := decide_eq_true rfl

/-- Settles O23: the machine's side is the reset state's, the host's is carried over by the event. -/
theorem resetEventRestoresEverythingButTheHostsSide : Obligations.ResetEventRestoresEverythingButTheHostsSide := by
  unfold Obligations.ResetEventRestoresEverythingButTheHostsSide
  intro s rest hsch
  have hstep : step s = .next (s.setSchedule rest).resetEvent := step_of_cons hsch
  obtain ⟨hpc, hmem, hstack, hi, hhalt, hv, hdt, hst, hfb⟩ :=
    State.values_of_atReset (s.setSchedule rest).atReset_resetEvent
  exact ⟨_, hstep, hmem, hpc, hfb, hv, hi, hstack, hdt, hst, rfl, rfl, hhalt, rfl, rfl, rfl, rfl⟩

/-! ### The parked machine (spec/70_reset_and_hazards.md R294; D29) -/

/-- The word `0x1000 + t` spells `JP t` (R103). -/
theorem decode_ofNat_jp {t : Nat} (h : t < 4096) :
    decode (BitVec.ofNat 16 (0x1000 + t)) = .ok (.jp (BitVec.ofNat 12 t)) := by
  have hw : BitVec.ofNat 16 (0x1000 + t) = encode (.jp (BitVec.ofNat 12 t)) := by
    have henc : (encode (.jp (BitVec.ofNat 12 t))).toNat = 0x1000 + (BitVec.ofNat 12 t).toNat := toNat_encodeNNN 0x1 _
    apply BitVec.eq_of_toNat_eq
    rw [henc, BitVec.toNat_ofNat, BitVec.toNat_ofNat]
    omega
  rw [hw]
  exact decodeOfEncodeIsTheInstruction _

/-- A jump to the address it was fetched from undoes the advance past it, so that the step ends where it began. -/
theorem exec_jp_of_advanced {s : State} {nnn : Addr12} (h : s.pc.toNat = nnn.toNat) :
    exec (.jp nnn) (s.setPc (s.pc + 2)) = .next s := by
  have hpc : zext12 nnn = s.pc := BitVec.eq_of_toNat_eq ((toNat_zext12 nnn).trans h.symm)
  rw [exec_jp, hpc]
  rfl

theorem State.Parked.halt_eq {s : State} {t : Nat} (h : s.Parked t) : s.halt = none := by
  obtain ⟨-, hrun, -, -⟩ := h
  exact hrun

/-- One cycle step of a parked machine (R120, R141). -/
theorem State.Parked.cycleStep_eq {s : State} {t : Nat} (h : s.Parked t) : cycleStep s = .next s := by
  obtain ⟨ht, hrun, hpc, hw⟩ := h
  have hlt : t < 4096 := by omega
  rw [cycleStep_of_fetchWord hrun hw, runWord_of_ok (decode_ofNat_jp hlt)]
  refine exec_jp_of_advanced ?_
  rw [hpc, BitVec.toNat_ofNat, Nat.mod_eq_of_lt hlt]

/-- Whether a machine is parked does not depend on its timers. -/
theorem State.Parked.setDt_setSt {s : State} {t : Nat} (h : s.Parked t) (d b : Byte) :
    ((s.setDt d).setSt b).Parked t := h

/-- Settles O59: a cycle step jumps back to where it began, and a timer step writes nothing that "parked" speaks of. -/
theorem parkedMachineStaysParked : Obligations.ParkedMachineStaysParked := by
  unfold Obligations.ParkedMachineStaysParked
  intro s t h
  refine ⟨fun hsch => ?_, h.cycleStep_eq, ?_⟩
  · exact run_of_step_eq_self (M := core) ((step_of_nil hsch).trans h.cycleStep_eq)
  · rw [timerStep_of_running h.halt_eq]
    exact ⟨h.setDt_setSt _ _, rfl⟩

end Sys2Proof.Machine
end
